-- ==== Sys2Proof/Word.lean ====
section
/-! DEFINITION. The word types of the block (R6, R24): command words, operand words, results and the 32-bit registers
are 32 bits wide; ALPHA, RUV and SCNT are 8 bits. -/

namespace Sys2Proof

/-- A 32-bit word: CMD_WORD, CMD_ARG, RES, NOW_MS and the 32-bit registers (R20, R24). An i32 is read with
`BitVec.toInt`, a u32 with `BitVec.toNat`. -/
abbrev Word := BitVec 32

/-- An 8-bit unsigned register value: ALPHA, RUV, SCNT (R32, R33, R34). -/
abbrev Byte := BitVec 8

/-- A sample of the ADC: a pattern in the low SAMPLE_BITS bits of a word (R5, R106; log 19). -/
abbrev Sample := BitVec 32

end Sys2Proof
end

