-- ==== Sys2Proof/Syntax.lean ====
section
/-! DEFINITION. The commands of the block (R2, R85): one constructor per row of spec/opcode_table.json. A constructor
holds the operand bits its command reads and no others (R83): the S bit as a `Reading`, and the field of CMD_ARG. -/

namespace Sys2Proof

/-- The S bit of a command word (R80, R82): 0 selects RAW, 1 selects SMOOTHED. -/
inductive Reading where
  | raw
  | smoothed
  deriving DecidableEq, Repr

/-- The 21 commands of R85, in the order of the opcode map. -/
inductive Instr where
  /-- POLL (R100). -/
  | poll
  /-- GET_STATUS (R120). -/
  | getStatus
  /-- SET_GAIN (R202); the operand is CMD_ARG[1:0], where 0b11 is illegal. -/
  | setGain (code : BitVec 2)
  /-- GET_GAIN (R203). -/
  | getGain
  /-- SET_ALPHA (R150); the operand is CMD_ARG[7:0]. -/
  | setAlpha (alpha : Byte)
  /-- GET_ALPHA (R152). -/
  | getAlpha
  /-- GET_TIMESTAMP (R122). -/
  | getTimestamp
  /-- GET_RAW (R123). -/
  | getRaw (sel : Reading)
  /-- TARE (R172). -/
  | tare (sel : Reading)
  /-- SET_TARE (R173); the operand is CMD_ARG[31:0]. -/
  | setTare (value : Word)
  /-- GET_TARE (R174). -/
  | getTare
  /-- GET_RAW_MINUS_TARE (R175). -/
  | getRawMinusTare (sel : Reading)
  /-- ADJUST_TO (R176); the operand is CMD_ARG[31:0], the target value. -/
  | adjustTo (sel : Reading) (target : Word)
  /-- GET_ADJUSTER (R177). -/
  | getAdjuster
  /-- SET_ADJUSTER (R178); the operand is CMD_ARG[31:0]. -/
  | setAdjuster (value : Word)
  /-- GET_ADJUSTED (R179). -/
  | getAdjusted (sel : Reading)
  /-- POWER_DOWN (R200). -/
  | powerDown
  /-- POWER_UP (R201). -/
  | powerUp
  /-- SET_READS_UNTIL_VALID (R151); the operand is CMD_ARG[7:0]. -/
  | setReadsUntilValid (threshold : Byte)
  /-- GET_READS_UNTIL_VALID (R153). -/
  | getReadsUntilValid
  /-- GET_ERR (R121). -/
  | getErr
  deriving DecidableEq, Repr

end Sys2Proof
end

