-- ==== Sys2Proof/WellFormed.lean ====
section
/-! DEFINITION. Which commands are well formed: the operand check of decode order step 3 (R86). Every other operand
value of every command is legal (R83, R173, R178). -/

namespace Sys2Proof

/-- The one operand check of R86: SET_GAIN's code is not the reserved 0b11 (R31). The block runs an ill-formed SET_GAIN
all the same, and its rule raises ILLEGAL_GAIN (R202); the assembler refuses it (R93, U12). -/
def Instr.wellFormed : Instr → Bool
  | .setGain code => code != 0b11#2
  | .poll | .getStatus | .getGain | .setAlpha _ | .getAlpha | .getTimestamp | .getRaw _ | .tare _ | .setTare _
  | .getTare | .getRawMinusTare _ | .adjustTo _ _ | .getAdjuster | .setAdjuster _ | .getAdjusted _ | .powerDown
  | .powerUp | .setReadsUntilValid _ | .getReadsUntilValid | .getErr => true

end Sys2Proof
end

