-- ==== Sys2Proof/Decode.lean ====
section
/-! DEFINITION. Decoding a command (R80 to R90), the encoder, the opcode map of R85 as a table, and the pseudo-instructions
of R92. Decoding is total: every CMD_WORD names one command or is rejected with one cause (R90). -/

namespace Sys2Proof

/-- Why the decoder rejects a command word (R86 steps 1 and 2). -/
inductive DecodeError where
  /-- OP is not assigned (R87). -/
  | illegalOpcode
  /-- A reserved bit of CMD_WORD is 1 (R88). -/
  | reservedField
  deriving DecidableEq, Repr

/-- OP, the field CMD_WORD[4:0] (R81). -/
def opField (word : Word) : BitVec 5 := word.extractLsb' 0 5

/-- S, the bit CMD_WORD[5] (R82). -/
def selField (word : Word) : Bool := word.getLsbD 5

/-- RSV, the field CMD_WORD[31:6] (R80). -/
def rsvField (word : Word) : BitVec 26 := word.extractLsb' 6 26

/-- OP is one of 0x01 .. 0x15 (R85, R87). -/
def opAssigned (op : BitVec 5) : Bool := 0x01#5 ≤ op && op ≤ 0x15#5

/-- The five opcodes whose command takes S (R80, R86). -/
def opTakesSel (op : BitVec 5) : Bool :=
  op == 0x08#5 || op == 0x09#5 || op == 0x0C#5 || op == 0x0D#5 || op == 0x10#5

/-- S = 0 is the raw reading, S = 1 the smoothed one (R80, R170). -/
def readingOfBit (bit : Bool) : Reading := if bit then .smoothed else .raw

/-- The bit S of a reading select; `readingOfBit` reads it back. -/
def bitOfReading : Reading → Bool
  | .raw => false
  | .smoothed => true

/-- The opcode map of R85 with the operand fields of R83; `none` for the opcodes R85 does not assign. -/
def commandOfOp (op : Nat) (sel : Reading) (arg : Word) : Option Instr :=
  match op with
  | 0x01 => some .poll
  | 0x02 => some .getStatus
  | 0x03 => some (.setGain (arg.extractLsb' 0 2))
  | 0x04 => some .getGain
  | 0x05 => some (.setAlpha (arg.extractLsb' 0 8))
  | 0x06 => some .getAlpha
  | 0x07 => some .getTimestamp
  | 0x08 => some (.getRaw sel)
  | 0x09 => some (.tare sel)
  | 0x0A => some (.setTare arg)
  | 0x0B => some .getTare
  | 0x0C => some (.getRawMinusTare sel)
  | 0x0D => some (.adjustTo sel arg)
  | 0x0E => some .getAdjuster
  | 0x0F => some (.setAdjuster arg)
  | 0x10 => some (.getAdjusted sel)
  | 0x11 => some .powerDown
  | 0x12 => some .powerUp
  | 0x13 => some (.setReadsUntilValid (arg.extractLsb' 0 8))
  | 0x14 => some .getReadsUntilValid
  | 0x15 => some .getErr
  | _ => none

/-- Decode order (R86): the opcode, then RSV, then S on a command without S; then the command itself. The operand check
of step 3 belongs to SET_GAIN's own meaning (R202). -/
def decode (word arg : Word) : Except DecodeError Instr :=
  if !opAssigned (opField word) then .error .illegalOpcode
  else if rsvField word != 0 then .error .reservedField
  else if selField word && !opTakesSel (opField word) then .error .reservedField
  else
    match commandOfOp (opField word).toNat (readingOfBit (selField word)) arg with
    | some i => .ok i
    | none => .error .illegalOpcode

/-- The word of OP and S with RSV = 0 (R80). -/
def commandWord (op : BitVec 5) (sel : Reading) : Word :=
  BitVec.setWidth 32 (BitVec.ofBool (bitOfReading sel) ++ op)

/-- OP of a command (R85). -/
def Instr.op : Instr → BitVec 5
  | .poll => 0x01
  | .getStatus => 0x02
  | .setGain _ => 0x03
  | .getGain => 0x04
  | .setAlpha _ => 0x05
  | .getAlpha => 0x06
  | .getTimestamp => 0x07
  | .getRaw _ => 0x08
  | .tare _ => 0x09
  | .setTare _ => 0x0A
  | .getTare => 0x0B
  | .getRawMinusTare _ => 0x0C
  | .adjustTo _ _ => 0x0D
  | .getAdjuster => 0x0E
  | .setAdjuster _ => 0x0F
  | .getAdjusted _ => 0x10
  | .powerDown => 0x11
  | .powerUp => 0x12
  | .setReadsUntilValid _ => 0x13
  | .getReadsUntilValid => 0x14
  | .getErr => 0x15

/-- The reading select of a command, `raw` (S = 0) for a command without S (R80). -/
def Instr.sel : Instr → Reading
  | .getRaw r | .tare r | .getRawMinusTare r | .adjustTo r _ | .getAdjusted r => r
  | .poll | .getStatus | .setGain _ | .getGain | .setAlpha _ | .getAlpha | .getTimestamp | .setTare _ | .getTare
  | .getAdjuster | .setAdjuster _ | .powerDown | .powerUp | .setReadsUntilValid _ | .getReadsUntilValid | .getErr => .raw

/-- The operand word of a command: its operand in the low bits, zero above and for a command without operand (R83). -/
def Instr.arg : Instr → Word
  | .setGain code => code.setWidth 32
  | .setAlpha alpha => alpha.setWidth 32
  | .setTare value => value
  | .adjustTo _ target => target
  | .setAdjuster value => value
  | .setReadsUntilValid threshold => threshold.setWidth 32
  | .poll | .getStatus | .getGain | .getAlpha | .getTimestamp | .getRaw _ | .tare _ | .getTare | .getRawMinusTare _
  | .getAdjuster | .getAdjusted _ | .powerDown | .powerUp | .getReadsUntilValid | .getErr => 0

/-- The encoder: CMD_WORD and CMD_ARG of a command (R80, R83, R85). -/
def encode (i : Instr) : Word × Word := (commandWord i.op i.sel, i.arg)

/-- One row of the opcode map of R85. -/
structure OpcodeRow where
  mnemonic : String
  matchWord : Word
  maskWord : Word
  deriving DecidableEq, Repr

/-- The match and mask columns of R85, row by row. -/
def opcodeTable : List OpcodeRow :=
  [⟨"POLL", 0x00000001, 0xFFFFFFFF⟩,
   ⟨"GET_STATUS", 0x00000002, 0xFFFFFFFF⟩,
   ⟨"SET_GAIN", 0x00000003, 0xFFFFFFFF⟩,
   ⟨"GET_GAIN", 0x00000004, 0xFFFFFFFF⟩,
   ⟨"SET_ALPHA", 0x00000005, 0xFFFFFFFF⟩,
   ⟨"GET_ALPHA", 0x00000006, 0xFFFFFFFF⟩,
   ⟨"GET_TIMESTAMP", 0x00000007, 0xFFFFFFFF⟩,
   ⟨"GET_RAW", 0x00000008, 0xFFFFFFDF⟩,
   ⟨"TARE", 0x00000009, 0xFFFFFFDF⟩,
   ⟨"SET_TARE", 0x0000000A, 0xFFFFFFFF⟩,
   ⟨"GET_TARE", 0x0000000B, 0xFFFFFFFF⟩,
   ⟨"GET_RAW_MINUS_TARE", 0x0000000C, 0xFFFFFFDF⟩,
   ⟨"ADJUST_TO", 0x0000000D, 0xFFFFFFDF⟩,
   ⟨"GET_ADJUSTER", 0x0000000E, 0xFFFFFFFF⟩,
   ⟨"SET_ADJUSTER", 0x0000000F, 0xFFFFFFFF⟩,
   ⟨"GET_ADJUSTED", 0x00000010, 0xFFFFFFDF⟩,
   ⟨"POWER_DOWN", 0x00000011, 0xFFFFFFFF⟩,
   ⟨"POWER_UP", 0x00000012, 0xFFFFFFFF⟩,
   ⟨"SET_READS_UNTIL_VALID", 0x00000013, 0xFFFFFFFF⟩,
   ⟨"GET_READS_UNTIL_VALID", 0x00000014, 0xFFFFFFFF⟩,
   ⟨"GET_ERR", 0x00000015, 0xFFFFFFFF⟩]

/-- The mnemonic of a command (R85). -/
def Instr.mnemonic : Instr → String
  | .poll => "POLL"
  | .getStatus => "GET_STATUS"
  | .setGain _ => "SET_GAIN"
  | .getGain => "GET_GAIN"
  | .setAlpha _ => "SET_ALPHA"
  | .getAlpha => "GET_ALPHA"
  | .getTimestamp => "GET_TIMESTAMP"
  | .getRaw _ => "GET_RAW"
  | .tare _ => "TARE"
  | .setTare _ => "SET_TARE"
  | .getTare => "GET_TARE"
  | .getRawMinusTare _ => "GET_RAW_MINUS_TARE"
  | .adjustTo _ _ => "ADJUST_TO"
  | .getAdjuster => "GET_ADJUSTER"
  | .setAdjuster _ => "SET_ADJUSTER"
  | .getAdjusted _ => "GET_ADJUSTED"
  | .powerDown => "POWER_DOWN"
  | .powerUp => "POWER_UP"
  | .setReadsUntilValid _ => "SET_READS_UNTIL_VALID"
  | .getReadsUntilValid => "GET_READS_UNTIL_VALID"
  | .getErr => "GET_ERR"

/-- CMD_WORD of an instruction given as one number: its low 32 bits (R80). The number holds `nbits` bits; every bit
above them is 0. -/
def tableCommandWord (nbits w : Nat) : Word := BitVec.ofNat 32 (w % 2 ^ nbits)

/-- CMD_ARG of an instruction given as one number: the 32 bits that follow CMD_WORD (R83; log 20). -/
def tableOperandWord (nbits w : Nat) : Word := BitVec.ofNat 32 (w % 2 ^ nbits / 2 ^ 32)

/-- The command the decoder reads from an instruction given as one number, bit 0 the least significant bit of CMD_WORD;
CMD_ARG is 0 when the number is 32 bits or shorter. -/
def decodeTableWord (nbits w : Nat) : Option Instr :=
  match decode (tableCommandWord nbits w) (tableOperandWord nbits w) with
  | .ok i => some i
  | .error _ => none

end Sys2Proof
end

