-- ==== Sys2Proof/Config.lean ====
section
/-! DEFINITION. What is fixed for one block: its parameters (R5, R42, R262), and the values the environment is free to
choose (R23). -/

namespace Sys2Proof

/-- GainMode (R9, R31): the gain and channel of a conversion. The 2-bit codes are `gainCode` (Machine/Operands.lean). -/
inductive GainMode where
  | gain32
  | gain64
  | gain128
  deriving DecidableEq, Repr

namespace Config

/-- The parameters of one block: the rows of R5 and R42 that fix its reset state (R262 calls RUV_INIT and GAIN_INIT its
instance parameters), and the source's literals, which D28 and U15 make parameters too (log 19). The defaults are R5's. No
step changes them (DESIGN CHOICE, log 2: they stand in State, so that every statement about all states is a statement
about all parameter values). -/
structure Params where
  rawReset : Word := 0
  smoothedReset : Word := 0
  timestampReset : Word := 0
  alphaReset : Byte := 0
  ruvInit : Byte := 3
  gainInit : GainMode := .gain128
  tareReset : Word := 0
  adjusterReset : Word := 1
  /-- SAMPLE_BITS (R5): the bits of a sample, and the data pulses of a transfer (R106). -/
  sampleBits : Nat := 24
  /-- SCALE (R5): a reading is the sample times SCALE plus a low part (R25); also the smoothing divisor (R141). -/
  scale : Nat := 256
  /-- TIMEOUT_MS (R5, R102). -/
  timeoutMs : Word := 500
  /-- PULSES(Gain128) (R5). -/
  pulses128 : Nat := 1
  /-- PULSES(Gain32) (R5). -/
  pulses32 : Nat := 2
  /-- PULSES(Gain64) (R5). -/
  pulses64 : Nat := 3
  deriving DecidableEq, Repr

/-- The literals are such that a transfer has a bit and a gain pulse, a reading is an i32 (R25), and no weight ALPHA
reaches SCALE (R142). A premise of claims, never a rule of the block (DESIGN CHOICE, log 19: R5 gives no range). -/
abbrev Params.Legal (p : Params) : Prop :=
  1 ≤ p.sampleBits ∧ 256 ≤ p.scale ∧ p.scale * 2 ^ p.sampleBits ≤ 2 ^ 32 ∧
  1 ≤ p.pulses128 ∧ 1 ≤ p.pulses32 ∧ 1 ≤ p.pulses64

/-- The source's own literals (R5). -/
abbrev Params.SourceLiterals (p : Params) : Prop :=
  p.sampleBits = 24 ∧ p.scale = 256 ∧ p.timeoutMs = 500 ∧ p.pulses128 = 1 ∧ p.pulses32 = 2 ∧ p.pulses64 = 3

/-- Free value: the level of PD_SCK_RB at the n-th sample the environment has lined up no draw for (R22, R23, U9;
log 4). -/
opaque freeClk : Nat → Bool

/-- Free value: the level of DOUT at the n-th sample the environment has lined up no draw for (R23, U8; log 4). -/
opaque freeData : Nat → Bool

/-- Free value: NOW_MS at the n-th sample the environment has lined up no draw for (R23, U10; log 4). -/
opaque freeNow : Nat → Word

end Config

end Sys2Proof
end

