-- ==== Sys2Proof/Machine/State.lean ====
section
/-! DEFINITION. The state of the block: its registers (R24), its ports (R20, R21), the environment's draws (R23) and the
instance parameters (R5, R262). Everything is plain data. -/

namespace Sys2Proof.Machine

/-- STATUS (R9, R30). The 2-bit codes are `Status.code` (Machine/Operands.lean). -/
inductive Status where
  | init
  | valid
  | poweredDown
  | timedOut
  deriving DecidableEq, Repr

/-- The causes of a command error (R223); the ERR bit of each is `Cause.bit`. -/
inductive Cause where
  /-- Raised by the decoder: OP is not assigned (R87). -/
  | illegalOpcode
  /-- Raised by the decoder: a reserved bit of CMD_WORD is 1 (R88). -/
  | reservedField
  /-- Raised by SET_GAIN on code 0b11 (R202). -/
  | illegalGain
  /-- Raised by GET_ADJUSTED while ADJUSTER = 0 (R179). -/
  | divByZero
  deriving DecidableEq, Repr

/-- The 13 registers of R24, the block's whole architectural state. -/
structure Regs where
  /-- RAW, i32 (R25, R26). -/
  raw : Word
  /-- SMOOTHED, i32 (R27). -/
  smoothed : Word
  /-- TIMESTAMP, u32 (R28). -/
  timestamp : Word
  /-- CONV_START, u32 (R29). -/
  convStart : Word
  /-- STATUS (R30). -/
  status : Status
  /-- GAIN (R31). -/
  gain : GainMode
  /-- ALPHA, u8 (R32). -/
  alpha : Byte
  /-- RUV, u8 (R33). -/
  ruv : Byte
  /-- SCNT, u8 (R34). -/
  scnt : Byte
  /-- TARE, i32 (R35). -/
  tare : Word
  /-- ADJUSTER, i32 (R36). -/
  adjuster : Word
  /-- ERR, 4 sticky bits (R37). -/
  err : BitVec 4
  /-- CLK_DRV, the level driven onto PD_SCK (R38). -/
  clkDrv : Bool
  deriving DecidableEq, Repr

/-- An event of a command's line trace (R62). -/
inductive LineEvent where
  /-- A sample of PD_SCK_RB. -/
  | rdClk (level : Bool)
  /-- A sample of DOUT. -/
  | rdData (level : Bool)
  /-- A sample of NOW_MS. -/
  | time (now : Word)
  /-- CLK_DRV <- level, visible on PD_SCK. -/
  | drive (level : Bool)
  deriving DecidableEq, Repr

/-- The environment's draws of one kind (R23): the draws it has lined up, then free values. `drawn` counts the draws
taken so far, and names the next free value (log 4). -/
structure Stream (α : Type) where
  lined : List α
  drawn : Nat
  deriving DecidableEq, Repr

/-- The three kinds of draw of R23. -/
structure Env where
  /-- Levels of PD_SCK_RB. -/
  clk : Stream Bool
  /-- Levels of DOUT. -/
  data : Stream Bool
  /-- Values of NOW_MS. -/
  now : Stream Word
  deriving DecidableEq, Repr

/-- RST during one step (R260, R261). -/
inductive Rst where
  /-- RST = 0 throughout. -/
  | low
  /-- RST = 1 at the step's first clock edge. -/
  | high
  /-- RST = 0 when the step's command is accepted, and RST = 1 after the command has run `microStates` micro-states
  (log 10). -/
  | during (microStates : Nat)
  deriving DecidableEq, Repr

/-- The levels the host puts on its ports for one step (R20, R21). -/
structure HostIn where
  rst : Rst
  cmdValid : Bool
  cmdWord : Word
  cmdArg : Word
  rspReady : Bool
  deriving DecidableEq, Repr

/-- The machine's state. `regs` is the architectural state of R24; the other fields are the ports, the environment and
the instance parameters. -/
structure State where
  /-- The registers (R24). -/
  regs : Regs
  /-- `some res`: RSP_VALID = 1 and RSP_DATA = res. `none`: RSP_VALID = 0 (R20; log 14). -/
  rsp : Option Word
  /-- The line trace of the last command (R62; log 11). -/
  trace : List LineEvent
  /-- The environment's draws (R23). -/
  env : Env
  /-- The host's port levels for the coming steps, first the next step's; nothing is offered after the last (log 9). -/
  hostIn : List HostIn
  /-- The instance parameters (R5, R42, R262); no step writes them (log 2). -/
  params : Config.Params
  deriving DecidableEq, Repr

/-- The faults that stop the machine: none. Every condition the block detects is recorded in STATUS or ERR and the block
goes on (R220 to R224, R227), so this type has no constructor (log 7). -/
inductive Fault where
  deriving DecidableEq, Repr

/-- The refusals. -/
inductive Refusal where
  /-- An instruction without a meaning in exec, by its mnemonic; safe. No arm of exec raises it: all 21 have a
  meaning. -/
  | notModelled (mnemonic : String)
  deriving DecidableEq, Repr

/-- The register values after reset (R42), for a block's parameters and the NOW_MS value of the reset cycle. -/
def Regs.reset (p : Config.Params) (now : Word) : Regs where
  raw := p.rawReset
  smoothed := p.smoothedReset
  timestamp := p.timestampReset
  convStart := now
  status := .init
  gain := p.gainInit
  alpha := p.alphaReset
  ruv := p.ruvInit
  scnt := 0
  tare := p.tareReset
  adjuster := p.adjusterReset
  err := 0
  clkDrv := false

/-- The machine right after reset (R42, R260), for a block's parameters and the NOW_MS value of the reset cycle: no
result presented, nothing offered by the host, no draw lined up. -/
def State.resetAt (p : Config.Params) (now : Word) : State where
  regs := Regs.reset p now
  rsp := none
  trace := []
  env := ⟨⟨[], 0⟩, ⟨[], 0⟩, ⟨[], 0⟩⟩
  hostIn := []
  params := p

/-- The machine right after a reset at NOW_MS = 0 with the default parameters of R5 (DESIGN CHOICE for NOW_MS, log 3; the
programs of 95_test_vectors.md start so). -/
def State.reset : State := State.resetAt {} 0

end Sys2Proof.Machine
end

