-- ==== Sys2Proof/Machine/Operands.lean ====
section
/-! DEFINITION. Operands and arithmetic over registers: the narrowing functions of R7, the codes of R30 and R31, the pulse
counts of R5, the reading select and tared difference (R170, R171), and the assembly of a sample (R106). -/

namespace Sys2Proof.Machine

/-- wrap32 of R7: the i32 congruent to v modulo 2^32. -/
def wrap32 (v : Int) : Word := BitVec.ofInt 32 v

/-- trunc_div of R7: the quotient rounded toward zero. -/
def truncDiv (a b : Int) : Int := Int.tdiv a b

/-- The code of STATUS (R30). -/
def Status.code : Status → BitVec 2
  | .init => 0b00
  | .valid => 0b01
  | .poweredDown => 0b10
  | .timedOut => 0b11

/-- The code of a GainMode (R31). -/
def gainCode : GainMode → BitVec 2
  | .gain32 => 0b00
  | .gain64 => 0b01
  | .gain128 => 0b10

/-- The GainMode of a code, `none` for the reserved 0b11 (R31). -/
def gainOfCode (code : BitVec 2) : Option GainMode :=
  match code.toNat with
  | 0 => some .gain32
  | 1 => some .gain64
  | 2 => some .gain128
  | _ => none

/-- PULSES(g) of R5 and R31: the extra pulses of a transfer. -/
def pulses (p : Config.Params) : GainMode → Nat
  | .gain128 => p.pulses128
  | .gain32 => p.pulses32
  | .gain64 => p.pulses64

/-- Sel(S) of R170. -/
def Regs.selected (r : Regs) : Reading → Word
  | .raw => r.raw
  | .smoothed => r.smoothed

/-- Diff(S) of R171: the tared difference, wrapped to 32 bits. -/
def Regs.tared (r : Regs) (sel : Reading) : Word := wrap32 ((r.selected sel).toInt - r.tare.toInt)

/-- trunc_div of two i32 values, wrapped to 32 bits (R176, R179). Both callers exclude a zero divisor. -/
def quotient32 (a b : Word) : Word := wrap32 (truncDiv a.toInt b.toInt)

/-- ADJUST_TO's target with zero coerced to 1 (R176). -/
def coercedTarget (target : Word) : Word := if target = 0 then 1 else target

/-- `sample[i] <- b` of R106. -/
def setSampleBit (sample : Sample) (i : Nat) (b : Bool) : Sample :=
  if b then sample ||| BitVec.twoPow 32 i else sample &&& ~~~ BitVec.twoPow 32 i

/-- RAW after a transfer, by R106's `sext_24(sample) × 256 + zext_8(RAW[7:0])`, which is the pattern
{sample[23:0], RAW[7:0]} (R26; `getLsbD_placeSample`), with SAMPLE_BITS for 24 and SCALE for 256 (log 19). -/
def placeSample (p : Config.Params) (sample : Sample) (raw : Word) : Word :=
  wrap32 ((sample.setWidth p.sampleBits).toInt * p.scale + raw.toInt % p.scale)

end Sys2Proof.Machine
end

