-- ==== Sys2Proof/Machine/Flags.lean ====
section
/-! DEFINITION. The boolean outcomes of the block. It has no condition codes (R43): there are the ERR bits (R37, R223), the
elapsed-time compare (R103) and POLL's done (R84). -/

namespace Sys2Proof.Machine

/-- The bit of ERR that a cause sets (R37, R223). -/
def Cause.bit : Cause → Nat
  | .illegalOpcode => 0
  | .reservedField => 1
  | .illegalGain => 2
  | .divByZero => 3

/-- ERR with a cause's bit set and the other bits as they were (R224). -/
def Regs.errWith (r : Regs) (c : Cause) : BitVec 4 := r.err ||| BitVec.twoPow 4 c.bit

/-- Elapsed(t) of R103: the unsigned 32-bit modular difference from CONV_START. -/
def Regs.elapsed (r : Regs) (t : Word) : Word := t - r.convStart

/-- The timeout compare of R102: Elapsed(t) ≥ TIMEOUT_MS, as unsigned numbers (R103). -/
def Regs.timedOutAt (r : Regs) (p : Config.Params) (t : Word) : Bool :=
  decide (p.timeoutMs.toNat ≤ (r.elapsed t).toNat)

/-- zext_32(done), POLL's result word (R84). -/
def doneWord (done : Bool) : Word := if done then 1 else 0

end Sys2Proof.Machine
end

