-- ==== Sys2Proof/Machine/Ops.lean ====
section
/-! DEFINITION. The shared operations: the environment's draws (R8, R23), the line driver (R62), the result port (R20),
raising a command error (R224) and reset (R260). -/

namespace Sys2Proof.Machine

/-- The draw `n` places ahead in a stream: a lined-up one, or the free value of its place. -/
def Stream.ahead {α : Type} (d : Stream α) (free : Nat → α) (n : Nat) : α :=
  (d.lined[n]?).getD (free (d.drawn + n))

/-- A stream after `n` draws. -/
def Stream.after {α : Type} (d : Stream α) (n : Nat) : Stream α := ⟨d.lined.drop n, d.drawn + n⟩

/-- The level of PD_SCK_RB `n` samples ahead (R22, R23). -/
def Env.clkAhead (e : Env) (n : Nat) : Bool := e.clk.ahead Config.freeClk n

/-- The level of DOUT `n` samples ahead (R23). -/
def Env.dataAhead (e : Env) (n : Nat) : Bool := e.data.ahead Config.freeData n

/-- The value of NOW_MS `n` samples ahead (R23). -/
def Env.nowAhead (e : Env) (n : Nat) : Word := e.now.ahead Config.freeNow n

/-- The environment after `c` samples of PD_SCK_RB, `d` of DOUT and `t` of NOW_MS. -/
def Env.after (e : Env) (c d t : Nat) : Env := ⟨e.clk.after c, e.data.after d, e.now.after t⟩

/-- The state with other registers. -/
def State.withRegs (s : State) (r : Regs) : State := { s with regs := r }

/-- A command begins: its line trace is empty (R62). -/
def State.beginCommand (s : State) : State := { s with trace := [] }

/-- A line event is appended to the trace (R62). -/
def State.emit (s : State) (e : LineEvent) : State := { s with trace := s.trace ++ [e] }

/-- A command ends with result word RES: RSP_VALID = 1, RSP_DATA = RES (R8, R20, R84). -/
def State.respond (s : State) (res : Word) : State := { s with rsp := some res }

/-- The level on the output PD_SCK (R21): the register CLK_DRV. -/
def State.pdSck (s : State) : Bool := s.regs.clkDrv

/-- The level LineRead(PD_SCK_RB) returns now (R8). -/
def State.clkLevel (s : State) : Bool := s.env.clkAhead 0

/-- The level LineRead(DOUT) returns now (R8). -/
def State.dataLevel (s : State) : Bool := s.env.dataAhead 0

/-- The value Now() returns now (R8). -/
def State.nowMs (s : State) : Word := s.env.nowAhead 0

/-- The state after LineRead(PD_SCK_RB): one draw taken, RdClk recorded (R62). -/
def State.sampleClk (s : State) : State := { s with env := s.env.after 1 0 0 }.emit (.rdClk s.clkLevel)

/-- The state after LineRead(DOUT): one draw taken, RdData recorded (R62). -/
def State.sampleData (s : State) : State := { s with env := s.env.after 0 1 0 }.emit (.rdData s.dataLevel)

/-- The state after Now(): one draw taken, Time recorded (R62). -/
def State.sampleNow (s : State) : State := { s with env := s.env.after 0 0 1 }.emit (.time s.nowMs)

/-- LineWrite(PD_SCK, level): CLK_DRV <- level, Drive recorded (R8, R38, R62). -/
def State.drive (s : State) (level : Bool) : State := (s.withRegs { s.regs with clkDrv := level }).emit (.drive level)

/-- A command that writes registers at most, drives no line and answers `res`. -/
def State.finish (s : State) (r : Regs) (res : Word) : Host.Outcome State Fault Refusal :=
  .next ((s.beginCommand.withRegs r).respond res)

/-- `raise <Cause>` (R8, R224): the cause's ERR bit is set, no other register is written, no line event is made, RES = 0.
The command counts as complete. This is the block's whole exception entry; there is no return from it (R227, R228). -/
def State.raise (s : State) (c : Cause) : Host.Outcome State Fault Refusal :=
  s.finish { s.regs with err := s.regs.errWith c } 0

/-- The cause a decode rejection raises (R86). -/
def causeOfDecodeError : DecodeError → Cause
  | .illegalOpcode => .illegalOpcode
  | .reservedField => .reservedField

/-- RST = 1 at a clock edge (R260): every register takes its reset value (R42), CONV_START the NOW_MS value of that cycle,
and no result is presented. The sample of NOW_MS is no line event of a command. -/
def State.applyReset (s : State) : State :=
  { s with regs := Regs.reset s.params s.nowMs, env := s.env.after 0 0 1, rsp := none }

/-- CMD_READY (R20): no command is executing and no result waits to be taken. -/
def State.cmdReady (s : State) : Bool := s.rsp.isNone

end Sys2Proof.Machine
end

