-- ==== Sys2Proof/Machine/FilterGate.lean ====
section
/-! DEFINITION. The smoothing filter and the settling gate of 41_filter_and_gate.md, and their four accessors: SET_ALPHA,
GET_ALPHA, SET_READS_UNTIL_VALID, GET_READS_UNTIL_VALID. -/

namespace Sys2Proof.Machine

/-- The exact new SMOOTHED of the smoothing update (R141), before it is stored: divide first, truncating toward zero,
then multiply. The divisor 256 is SCALE. -/
def smoothedExact (p : Config.Params) (raw smoothed : Word) (alpha : Byte) : Int :=
  let d := raw.toInt - smoothed.toInt
  let q := truncDiv d p.scale
  smoothed.toInt + q * alpha.toNat

/-- SmoothUpdate of R141. The stored value is an i32 (R142), so storing it never wraps (`smoothUpdate_toInt`). -/
def Regs.smoothUpdate (r : Regs) (p : Config.Params) : Regs :=
  { r with smoothed := wrap32 (smoothedExact p r.raw r.smoothed r.alpha) }

/-- The outcome of the settling gate (R144). -/
inductive Gate where
  | hold
  | pass
  deriving DecidableEq, Repr

/-- SettlingGate of R144: count and hold, seed (R145), or smooth in steady state (R146). -/
def Regs.settle (r : Regs) (p : Config.Params) : Regs × Gate :=
  if r.scnt < r.ruv then
    let r1 := { r with scnt := r.scnt + 1 }
    if r1.scnt < r1.ruv then (r1, .hold)
    else ({ r1 with smoothed := r1.raw }, .pass)
  else (r.smoothUpdate p, .pass)

/-- SET_ALPHA (R150). -/
def execSetAlpha (alpha : Byte) (s : State) : Host.Outcome State Fault Refusal :=
  s.finish { s.regs with alpha := alpha } 0

/-- GET_ALPHA (R152). -/
def execGetAlpha (s : State) : Host.Outcome State Fault Refusal :=
  s.finish s.regs (s.regs.alpha.setWidth 32)

/-- SET_READS_UNTIL_VALID (R151): RUV is written and SCNT clamped to it. -/
def execSetReadsUntilValid (threshold : Byte) (s : State) : Host.Outcome State Fault Refusal :=
  s.finish
    { s.regs with ruv := threshold, scnt := if threshold < s.regs.scnt then threshold else s.regs.scnt } 0

/-- GET_READS_UNTIL_VALID (R153). -/
def execGetReadsUntilValid (s : State) : Host.Outcome State Fault Refusal :=
  s.finish s.regs (s.regs.ruv.setWidth 32)

end Sys2Proof.Machine
end

