-- ==== Sys2Proof/Machine/Acquisition.lean ====
section
/-! DEFINITION. The acquisition state machine POLL (R100 to R112) and the commands that read what it produces: GET_STATUS,
GET_ERR, GET_TIMESTAMP and GET_RAW (40_acquisition.md). -/

namespace Sys2Proof.Machine

/-- Step 3, timeout recovery (R104). -/
def Regs.recover (r : Regs) : Regs :=
  match r.status with
  | .timedOut => { r with status := .init, scnt := 0 }
  | .init | .valid | .poweredDown => r

/-- The loop of ShiftIn24 (R106) for bits n-1 down to 0: each pulse drives the clock high, samples DOUT, and drives the
clock low. -/
def shiftBits : Nat → Sample → State → Sample × State
  | 0, sample, s => (sample, s)
  | i + 1, sample, s =>
    let high := s.drive true
    shiftBits i (setSampleBit sample i high.dataLevel) (high.sampleData.drive false)

/-- RAW <- the sample and RAW's low part, the write that ends ShiftIn24 (R106). -/
def State.writeSample (s : State) (sample : Sample) : State :=
  s.withRegs { s.regs with raw := placeSample s.params sample s.regs.raw }

/-- Step 5, ShiftIn24 (R106): SAMPLE_BITS = 24 bits MSB first, then the write of RAW. -/
def State.shiftIn24 (s : State) : State :=
  let shifted := shiftBits s.params.sampleBits 0 s
  shifted.2.writeSample shifted.1

/-- Step 6, GainPulses (R107): n further pulses, without sampling DOUT. -/
def gainPulses : Nat → State → State
  | 0, s => s
  | n + 1, s => gainPulses n ((s.drive true).drive false)

/-- Steps 3 to 7 of a POLL, a transfer up to the settling gate (R104 to R108). -/
def State.transfer (s : State) : State :=
  let recovered := s.withRegs s.regs.recover
  let stamped := recovered.withRegs { recovered.regs with timestamp := recovered.regs.convStart }
  let shifted := stamped.shiftIn24
  let pulsed := gainPulses (pulses shifted.params shifted.regs.gain) shifted
  pulsed.sampleNow.withRegs { pulsed.regs with convStart := pulsed.nowMs }

/-- Steps 8 and 9 of a POLL (R111, R144): the settling gate, and STATUS <- Valid where it passes. -/
def State.settleAndReport (s : State) : State × Bool :=
  match s.regs.settle s.params with
  | (r, .hold) => (s.withRegs r, false)
  | (r, .pass) => (s.withRegs { r with status := .valid }, true)

/-- Step 2 of a POLL once DOUT has read 1 (R102): timed out, or still busy. -/
def State.busy (s : State) : State × Bool :=
  let s1 := s.sampleNow
  if s.regs.timedOutAt s.params s.nowMs then (s1.withRegs { s1.regs with status := .timedOut }, true) else (s1, false)

/-- One pass of the acquisition state machine, steps 1 to 9 of R100, with its done result. -/
def State.pollPass (s : State) : State × Bool :=
  let s1 := s.sampleClk
  if s.clkLevel then (s1.withRegs { s1.regs with status := .poweredDown }, true)
  else
    let s2 := s1.sampleData
    if s1.dataLevel then s2.busy else s2.transfer.settleAndReport

/-- POLL (R100). -/
def execPoll (s : State) : Host.Outcome State Fault Refusal :=
  let pass := s.beginCommand.pollPass
  .next (pass.1.respond (doneWord pass.2))

/-- GET_STATUS (R120). -/
def execGetStatus (s : State) : Host.Outcome State Fault Refusal :=
  s.finish s.regs (s.regs.status.code.setWidth 32)

/-- GET_ERR (R121). Reading does not clear ERR. -/
def execGetErr (s : State) : Host.Outcome State Fault Refusal :=
  s.finish s.regs (s.regs.err.setWidth 32)

/-- GET_TIMESTAMP (R122). -/
def execGetTimestamp (s : State) : Host.Outcome State Fault Refusal :=
  s.finish s.regs s.regs.timestamp

/-- GET_RAW (R123). -/
def execGetRaw (sel : Reading) (s : State) : Host.Outcome State Fault Refusal :=
  s.finish s.regs (s.regs.selected sel)

end Sys2Proof.Machine
end

