-- ==== Sys2Proof/Machine/Calibration.lean ====
section
/-! DEFINITION. The calibration datapath of 42_calibration.md: TARE, SET_TARE, GET_TARE, GET_RAW_MINUS_TARE, ADJUST_TO,
GET_ADJUSTER, SET_ADJUSTER, GET_ADJUSTED. -/

namespace Sys2Proof.Machine

/-- TARE (R172). -/
def execTare (sel : Reading) (s : State) : Host.Outcome State Fault Refusal :=
  s.finish { s.regs with tare := s.regs.selected sel } 0

/-- SET_TARE (R173). -/
def execSetTare (value : Word) (s : State) : Host.Outcome State Fault Refusal :=
  s.finish { s.regs with tare := value } 0

/-- GET_TARE (R174). -/
def execGetTare (s : State) : Host.Outcome State Fault Refusal :=
  s.finish s.regs s.regs.tare

/-- GET_RAW_MINUS_TARE (R175). It does not read ADJUSTER (C3). -/
def execGetRawMinusTare (sel : Reading) (s : State) : Host.Outcome State Fault Refusal :=
  s.finish s.regs (s.regs.tared sel)

/-- ADJUST_TO (R176). -/
def execAdjustTo (sel : Reading) (target : Word) (s : State) : Host.Outcome State Fault Refusal :=
  s.finish { s.regs with adjuster := quotient32 (s.regs.tared sel) (coercedTarget target) } 0

/-- GET_ADJUSTER (R177). -/
def execGetAdjuster (s : State) : Host.Outcome State Fault Refusal :=
  s.finish s.regs s.regs.adjuster

/-- SET_ADJUSTER (R178). Zero is stored like any other value. -/
def execSetAdjuster (value : Word) (s : State) : Host.Outcome State Fault Refusal :=
  s.finish { s.regs with adjuster := value } 0

/-- GET_ADJUSTED (R179): raises DIV_BY_ZERO while ADJUSTER = 0. -/
def execGetAdjusted (sel : Reading) (s : State) : Host.Outcome State Fault Refusal :=
  if s.regs.adjuster = 0 then s.raise .divByZero
  else s.finish s.regs (quotient32 (s.regs.tared sel) s.regs.adjuster)

end Sys2Proof.Machine
end

