-- ==== Sys2Proof/Machine/PowerGain.lean ====
section
/-! DEFINITION. Power control and gain selection of 43_power_and_gain.md: POWER_DOWN, POWER_UP, SET_GAIN, GET_GAIN. -/

namespace Sys2Proof.Machine

/-- POWER_DOWN (R200): the clock line is driven high; STATUS does not change here. -/
def execPowerDown (s : State) : Host.Outcome State Fault Refusal :=
  .next ((s.beginCommand.drive true).respond 0)

/-- POWER_UP (R201): the clock line is driven low, the settling gate restarts, CONV_START <- Now(). -/
def execPowerUp (s : State) : Host.Outcome State Fault Refusal :=
  let low := s.beginCommand.drive false
  let restarted := low.withRegs { low.regs with status := .init, scnt := 0 }
  .next ((restarted.sampleNow.withRegs { restarted.regs with convStart := restarted.nowMs }).respond 0)

/-- SET_GAIN (R202): raises ILLEGAL_GAIN on code 0b11. -/
def execSetGain (code : BitVec 2) (s : State) : Host.Outcome State Fault Refusal :=
  match gainOfCode code with
  | none => s.raise .illegalGain
  | some g => s.finish { s.regs with gain := g, status := .init, scnt := 0 } 0

/-- GET_GAIN (R203). -/
def execGetGain (s : State) : Host.Outcome State Fault Refusal :=
  s.finish s.regs ((gainCode s.regs.gain).setWidth 32)

end Sys2Proof.Machine
end

