-- ==== Sys2Proof/Machine/Dispatch.lean ====
section
/-! DEFINITION. exec: one arm per command. -/

namespace Sys2Proof.Machine

/-- What a decoded command does (R86 step 4): one meaning per command. Every arm answers a next state. -/
def exec (i : Instr) (s : State) : Host.Outcome State Fault Refusal :=
  match i with
  | .poll => Sys2Proof.Machine.execPoll s
  | .getStatus => Sys2Proof.Machine.execGetStatus s
  | .setGain code => Sys2Proof.Machine.execSetGain code s
  | .getGain => Sys2Proof.Machine.execGetGain s
  | .setAlpha alpha => Sys2Proof.Machine.execSetAlpha alpha s
  | .getAlpha => Sys2Proof.Machine.execGetAlpha s
  | .getTimestamp => Sys2Proof.Machine.execGetTimestamp s
  | .getRaw sel => Sys2Proof.Machine.execGetRaw sel s
  | .tare sel => Sys2Proof.Machine.execTare sel s
  | .setTare value => Sys2Proof.Machine.execSetTare value s
  | .getTare => Sys2Proof.Machine.execGetTare s
  | .getRawMinusTare sel => Sys2Proof.Machine.execGetRawMinusTare sel s
  | .adjustTo sel target => Sys2Proof.Machine.execAdjustTo sel target s
  | .getAdjuster => Sys2Proof.Machine.execGetAdjuster s
  | .setAdjuster value => Sys2Proof.Machine.execSetAdjuster value s
  | .getAdjusted sel => Sys2Proof.Machine.execGetAdjusted sel s
  | .powerDown => Sys2Proof.Machine.execPowerDown s
  | .powerUp => Sys2Proof.Machine.execPowerUp s
  | .setReadsUntilValid threshold => Sys2Proof.Machine.execSetReadsUntilValid threshold s
  | .getReadsUntilValid => Sys2Proof.Machine.execGetReadsUntilValid s
  | .getErr => Sys2Proof.Machine.execGetErr s

end Sys2Proof.Machine
end

