-- ==== Sys2Proof/Machine/Sequencer.lean ====
section
/-! DEFINITION. The POLL sequencer of R109: the micro-states by which the hardware runs one POLL. It is not architectural
(R46): exec runs POLL as one atomic step, and the sequencer is a second, finer machine for the same command. A reset that
lands inside a POLL (R260, R261) is taken between two of its micro-states. -/

namespace Sys2Proof.Machine

/-- The micro-states of R109, and `idle` after RESPOND. -/
inductive Micro where
  | chkClk
  | setPd
  | chkData
  | chkTime
  | setTo
  | recover
  | stamp
  | bitHi
  | bitSample
  | bitLo
  | pulseHi
  | pulseLo
  | start
  | gate
  | valid
  | respond
  | idle
  deriving DecidableEq, Repr

/-- The in-flight state of a POLL (R46, R109): the micro-state, the bit index i, the pulse index k, the partial sample and
RES, beside the machine's state. -/
structure Seq where
  micro : Micro
  bit : Nat
  pulse : Nat
  sample : Sample
  done : Bool
  m : State
  deriving DecidableEq, Repr

/-- A POLL has just been accepted. -/
def seqStart (s : State) : Seq :=
  { micro := .chkClk, bit := 0, pulse := 0, sample := 0, done := false, m := s.beginCommand }

/-- One micro-state of R109: its action and its successor. -/
def microStep (q : Seq) : Seq :=
  match q.micro with
  | .chkClk => { q with micro := if q.m.clkLevel then .setPd else .chkData, m := q.m.sampleClk }
  | .setPd =>
    { q with micro := .respond, done := true, m := q.m.withRegs { q.m.regs with status := .poweredDown } }
  | .chkData => { q with micro := if q.m.dataLevel then .chkTime else .recover, m := q.m.sampleData }
  | .chkTime =>
    { q with
      micro := if q.m.regs.timedOutAt q.m.params q.m.nowMs then .setTo else .respond
      done := false, m := q.m.sampleNow }
  | .setTo =>
    { q with micro := .respond, done := true, m := q.m.withRegs { q.m.regs with status := .timedOut } }
  | .recover => { q with micro := .stamp, m := q.m.withRegs q.m.regs.recover }
  | .stamp =>
    { q with
      micro := .bitHi, bit := q.m.params.sampleBits - 1
      m := q.m.withRegs { q.m.regs with timestamp := q.m.regs.convStart } }
  | .bitHi => { q with micro := .bitSample, m := q.m.drive true }
  | .bitSample =>
    { q with micro := .bitLo, sample := setSampleBit q.sample q.bit q.m.dataLevel, m := q.m.sampleData }
  | .bitLo =>
    let low := q.m.drive false
    match q.bit with
    | i + 1 => { q with micro := .bitHi, bit := i, m := low }
    | 0 => { q with micro := .pulseHi, pulse := 1, m := low.writeSample q.sample }
  | .pulseHi => { q with micro := .pulseLo, m := q.m.drive true }
  | .pulseLo =>
    let low := q.m.drive false
    if q.pulse < pulses low.params low.regs.gain then { q with micro := .pulseHi, pulse := q.pulse + 1, m := low }
    else { q with micro := .start, m := low }
  | .start =>
    { q with micro := .gate, m := q.m.sampleNow.withRegs { q.m.regs with convStart := q.m.nowMs } }
  | .gate =>
    match q.m.regs.settle q.m.params with
    | (r, .hold) => { q with micro := .respond, done := false, m := q.m.withRegs r }
    | (r, .pass) => { q with micro := .valid, m := q.m.withRegs r }
  | .valid => { q with micro := .respond, done := true, m := q.m.withRegs { q.m.regs with status := .valid } }
  | .respond => { q with micro := .idle, m := q.m.respond (doneWord q.done) }
  | .idle => q

/-- `n` micro-states in a row. -/
def microRun : Nat → Seq → Seq
  | 0, q => q
  | n + 1, q => microRun n (microStep q)

/-- The least number of core clock cycles a micro-state takes (R109): at least one, at least T_HIGH where PD_SCK is driven
high and at least T_LOW where it is driven low. T_HIGH and T_LOW are OPEN parameters (R5, D23; log 16). -/
def Micro.minCycles (tHigh tLow : Nat) : Micro → Nat
  | .bitHi | .pulseHi => max 1 tHigh
  | .bitLo | .pulseLo => max 1 tLow
  | .chkClk | .setPd | .chkData | .chkTime | .setTo | .recover | .stamp | .bitSample | .start | .gate | .valid
  | .respond => 1
  | .idle => 0

/-- The least number of core clock cycles that the next `n` micro-states take. -/
def minCyclesOf (tHigh tLow : Nat) : Nat → Seq → Nat
  | 0, _ => 0
  | n + 1, q => q.micro.minCycles tHigh tLow + minCyclesOf tHigh tLow n (microStep q)

end Sys2Proof.Machine
end

