-- ==== Sys2Proof/Machine/Port.lean ====
section
/-! DEFINITION. The command port (R20, R21) and reset (R260, R261): what one step does with the host's port levels. -/

namespace Sys2Proof.Machine

/-- An accepted command word runs: its command, or the error its decoding raises (R86). -/
def runCommand (word arg : Word) (s : State) : Host.Outcome State Fault Refusal :=
  match decode word arg with
  | .ok i => exec i s
  | .error e => s.raise (causeOfDecodeError e)

/-- The state in which an accepted command is abandoned after `k` of its micro-states (R260, R261). A POLL stands in
whatever micro-state of R109 it has reached. A POWER_UP has driven the clock line low when k = 1, and has also sampled
NOW_MS when k ≥ 2 (R201). Any other command has at most one line event: it has taken effect when k ≥ 1, and has not begun
when k = 0 (DESIGN CHOICE, log 10: only the line trace and the draws taken can differ, since reset writes every
register). -/
def abandonedAfter (k : Nat) (word arg : Word) (s : State) : State :=
  if decode word arg = .ok .poll then (microRun k (seqStart s)).m
  else if k = 0 then s.beginCommand
  else if decode word arg = .ok .powerUp ∧ k = 1 then s.beginCommand.drive false
  else
    match runCommand word arg s with
    | .next t => t
    | .fault _ | .refused _ => s

/-- A command is accepted on this step: CMD_VALID = 1 and CMD_READY = 1 (R20). -/
def accepts (h : HostIn) (s : State) : Bool := h.cmdValid && s.cmdReady

/-- One step with RST = 0 (R20): a command is accepted and runs to its result; or a presented result is taken with
RSP_READY = 1; or nothing changes (a result is held until RSP_READY, and an idle block waits). -/
def portStep (h : HostIn) (s : State) : Host.Outcome State Fault Refusal :=
  if accepts h s then runCommand h.cmdWord h.cmdArg s
  else if h.rspReady then .next { s with rsp := none }
  else .next s

/-- One step with the host's levels `h` (R20, R260). -/
def hostStep (h : HostIn) (s : State) : Host.Outcome State Fault Refusal :=
  match h.rst with
  | .low => portStep h s
  | .high => .next s.applyReset
  | .during k =>
    if accepts h s then .next (abandonedAfter k h.cmdWord h.cmdArg s).applyReset else .next s.applyReset

/-- The next step's host levels are taken off the list. -/
def State.nextHostIn (s : State) : State := { s with hostIn := s.hostIn.tail }

/-- The host levels that offer a command and nothing else. -/
def offer (word arg : Word) : HostIn :=
  { rst := .low, cmdValid := true, cmdWord := word, cmdArg := arg, rspReady := false }

/-- The host offers a command on the next step and the block is ready for it (CMD_READY = 1). -/
def State.offered (s : State) (word arg : Word) : State :=
  { s with rsp := none, hostIn := offer word arg :: s.hostIn }

end Sys2Proof.Machine
end

