-- ==== Sys2Proof/Machine/Step.lean ====
section
/-! DEFINITION. step: one step of the machine. -/

namespace Sys2Proof.Machine

/-- One step: the host's levels for this step are read and acted on (R20, R260). When the host offers nothing more, the
block waits for a command (R260). -/
def step (s : State) : Host.Outcome State Fault Refusal :=
  match s.hostIn with
  | [] => .next s
  | h :: _ => hostStep h s.nextHostIn

/-- s with the command whose bits are w offered on the next step and CMD_READY = 1, so that the next step accepts and runs
it. CMD_WORD is w's low 32 bits and CMD_ARG the 32 bits above, 0 where nbits is 32 (log 20). -/
def State.withFetchWord (s : State) (nbits w : Nat) : State :=
  s.offered (tableCommandWord nbits w) (tableOperandWord nbits w)

end Sys2Proof.Machine
end

