-- ==== Sys2Proof/Machine/Assembler.lean ====
section
/-! DEFINITION. The spec's notation for command sequences: the assembler syntax of R91 and the pseudo-instructions of R92.
It is notation only (D27); no step of the machine uses it. -/

namespace Sys2Proof.Machine

/-- An operand as R91 writes it. -/
inductive AsmOperand where
  /-- `#` integer. -/
  | integer (value : Int)
  /-- `#` gainname. -/
  | gain (mode : GainMode)
  deriving DecidableEq, Repr

/-- A command as R91 writes it: MNEMONIC [".S"] [operand]. -/
structure AsmCommand where
  mnemonic : String
  dotS : Bool
  operand : Option AsmOperand
  deriving DecidableEq, Repr

/-- Why the assembler rejects a line. -/
inductive AsmError where
  /-- The line is not of R91's grammar. -/
  | malformed
  /-- The mnemonic is neither of R85 nor of R92. -/
  | unknownMnemonic
  /-- `.S` on a command without S (R91). -/
  | selectNotTaken
  /-- An operand on a command that ignores CMD_ARG (R91). -/
  | operandNotTaken
  /-- An operand outside the field of R83 (R91), or a SET_GAIN code that is no GainMode (R93, U12). -/
  | operandDoesNotFit
  deriving DecidableEq, Repr

/-- The field of CMD_ARG a command reads (R83). -/
inductive OperandField where
  | ignored
  | gainMode
  | u8
  | i32
  deriving DecidableEq, Repr

/-- The operand table of R83, by opcode. -/
def operandField (op : BitVec 5) : OperandField :=
  if op = 0x03 then .gainMode
  else if op = 0x05 ∨ op = 0x13 then .u8
  else if op = 0x0A ∨ op = 0x0D ∨ op = 0x0F then .i32
  else .ignored

/-- The integer of an operand: a gain name stands for its code (R91). -/
def AsmOperand.value : AsmOperand → Int
  | .integer v => v
  | .gain g => (gainCode g).toNat

/-- Whether an operand value fits a field of R83. An i32 field takes -2^31 .. 2^31 - 1 (DESIGN CHOICE, log 18). -/
def OperandField.fits (v : Int) : OperandField → Bool
  | .ignored => false
  | .gainMode => 0 ≤ v && v ≤ 2
  | .u8 => 0 ≤ v && v ≤ 255
  | .i32 => -2 ^ 31 ≤ v && v < 2 ^ 31

/-- The expansion of a pseudo-instruction (R92). -/
def pseudoExpansion (mnemonic : String) : Option AsmCommand :=
  if mnemonic = "GET_SMOOTHED" then some ⟨"GET_RAW", true, none⟩
  else if mnemonic = "TARE_SMOOTHED" then some ⟨"TARE", true, none⟩
  else if mnemonic = "SELECT_A128" then some ⟨"SET_GAIN", false, some (.gain .gain128)⟩
  else if mnemonic = "SELECT_A64" then some ⟨"SET_GAIN", false, some (.gain .gain64)⟩
  else if mnemonic = "SELECT_B32" then some ⟨"SET_GAIN", false, some (.gain .gain32)⟩
  else none

/-- CMD_ARG of a command's operand: 0 where none is written, the two's-complement pattern of a written one (R91). -/
def operandWord (field : OperandField) : Option AsmOperand → Except AsmError Word
  | none => .ok 0
  | some o =>
    if field = .ignored then .error .operandNotTaken
    else if field.fits o.value then .ok (wrap32 o.value)
    else .error .operandDoesNotFit

/-- The words of a command of R85. -/
def assembleCore (c : AsmCommand) : Except AsmError (Word × Word) :=
  match opcodeTable.find? (fun row => row.mnemonic = c.mnemonic) with
  | none => .error .unknownMnemonic
  | some row =>
    let op := opField row.matchWord
    if c.dotS && !opTakesSel op then .error .selectNotTaken
    else
      match operandWord (operandField op) c.operand with
      | .error e => .error e
      | .ok arg => .ok (commandWord op (readingOfBit c.dotS), arg)

/-- The words of a command, where a pseudo-instruction stands for its expansion (R92) and takes neither `.S` nor an
operand. -/
def assemble (c : AsmCommand) : Except AsmError (Word × Word) :=
  match pseudoExpansion c.mnemonic with
  | none => assembleCore c
  | some expansion =>
    if c.dotS then .error .selectNotTaken
    else if c.operand.isSome then .error .operandNotTaken
    else assembleCore expansion

/-- The digit a character stands for. -/
def digitOf (c : Char) : Option Nat :=
  if '0' ≤ c ∧ c ≤ '9' then some (c.toNat - '0'.toNat)
  else if 'a' ≤ c ∧ c ≤ 'f' then some (c.toNat - 'a'.toNat + 10)
  else if 'A' ≤ c ∧ c ≤ 'F' then some (c.toNat - 'A'.toNat + 10)
  else none

/-- The number that digits of a base continue from `acc`; `none` where a character is no digit of the base. -/
def numberFrom (base acc : Nat) : List Char → Option Nat
  | [] => some acc
  | c :: cs =>
    match digitOf c with
    | some d => if d < base then numberFrom base (base * acc + d) cs else none
    | none => none

/-- An unsigned integer, decimal or 0x-hex (R91). -/
def unsignedOf : List Char → Option Nat
  | [] => none
  | '0' :: 'x' :: c :: cs => numberFrom 16 0 (c :: cs)
  | c :: cs => numberFrom 10 0 (c :: cs)

/-- An integer, optionally negative (R91). -/
def integerOf : List Char → Option Int
  | '-' :: cs => (unsignedOf cs).map fun n => -(n : Int)
  | cs => (unsignedOf cs).map Int.ofNat

/-- An operand token (R91). -/
def operandOf : List Char → Option AsmOperand
  | '#' :: cs =>
    if cs = "Gain32".toList then some (.gain .gain32)
    else if cs = "Gain64".toList then some (.gain .gain64)
    else if cs = "Gain128".toList then some (.gain .gain128)
    else (integerOf cs).map .integer
  | _ => none

/-- The tokens of a text between blanks; `current` holds the token being read, last character first. -/
def tokensFrom (current : List Char) : List Char → List (List Char)
  | [] => if current.isEmpty then [] else [current.reverse]
  | c :: cs =>
    if c = ' ' ∨ c = '\t' then
      if current.isEmpty then tokensFrom [] cs else current.reverse :: tokensFrom [] cs
    else tokensFrom (c :: current) cs

/-- A mnemonic token without its `.S`, and whether it has one. -/
def splitDotS (token : List Char) : List Char × Bool :=
  match token.reverse with
  | 'S' :: '.' :: rest => (rest.reverse, true)
  | _ => (token, false)

/-- The text of a line after its label, if it has one. R91 names `label` and gives it no form: here it is one word, any
characters but blanks and `:`, before the first `:` (DESIGN CHOICE, log 18). -/
def afterLabel (code : List Char) : Except AsmError (List Char) :=
  if code.contains ':' then
    match tokensFrom [] (code.takeWhile (· != ':')) with
    | [_] => .ok ((code.dropWhile (· != ':')).drop 1)
    | _ => .error .malformed
  else .ok code

/-- A command of R91: a mnemonic token and at most one operand token. -/
def commandOf : List (List Char) → Except AsmError AsmCommand
  | [m] => .ok ⟨String.ofList (splitDotS m).1, (splitDotS m).2, none⟩
  | [m, o] =>
    match operandOf o with
    | some operand => .ok ⟨String.ofList (splitDotS m).1, (splitDotS m).2, some operand⟩
    | none => .error .malformed
  | _ => .error .malformed

/-- The command of a line: the comment from `;` on and a label (`afterLabel`; its form is the model's choice, log 18) are
left out (R91). -/
def parseLine (line : List Char) : Except AsmError AsmCommand :=
  match afterLabel (line.takeWhile (· != ';')) with
  | .ok body => commandOf (tokensFrom [] body)
  | .error e => .error e

/-- CMD_WORD and CMD_ARG of one line of R91. -/
def assembleLine (line : String) : Except AsmError (Word × Word) :=
  match parseLine line.toList with
  | .ok c => assemble c
  | .error e => .error e

end Sys2Proof.Machine
end

