-- ==== Sys2Proof/Safety.lean ====
section
/-! DEFINITION. The vocabulary of claims about the machine: the invariant, the wiring premise W1, good runs, what kind of
POLL a state is about to make, and which registers a command may write. -/

namespace Sys2Proof.Machine

/-- The invariant every step keeps: SCNT ≤ RUV (R34); RAW's low part is RAW_RESET's (R26: RAW[7:0] where SCALE is 256);
and the parameters are ones a claim may assume (log 19). -/
abbrev State.Inv (s : State) : Prop :=
  s.params.Legal ∧ s.regs.scnt ≤ s.regs.ruv ∧
  s.regs.raw.toInt % s.params.scale = s.params.rawReset.toInt % s.params.scale

/-- The wiring assumption W1 for the next sample of PD_SCK_RB: it reads the driven level (R22). A premise a claim names,
never a rule of the block. -/
abbrev State.Wired (s : State) : Prop := s.clkLevel = s.regs.clkDrv

/-- No command error has been recorded; 93_implementation_defined.md U1 asks a claim about good runs to assume it. -/
abbrev State.NoError (s : State) : Prop := s.regs.err = 0

/-- The level of DOUT that a POLL reads at its step 2, after its sample of PD_SCK_RB (R102). -/
def State.readyLevel (s : State) : Bool := s.env.dataAhead 0

/-- The next POLL is a transfer: PD_SCK_RB and DOUT read 0 (R104, glossary of 00_scope.md). -/
abbrev State.TransferNext (s : State) : Prop := s.clkLevel = false ∧ s.readyLevel = false

/-- The elapsed milliseconds a busy POLL measures, modulo 2^32 (R103), from the natural numbers of the two times. -/
def State.elapsedMs (s : State) : Nat := (s.nowMs.toNat + 2 ^ 32 - s.regs.convStart.toNat) % 2 ^ 32

/-- SCNT as step 8 of a transfer finds it: 0 where step 3 recovers from a timeout (R104). -/
def State.gateCount (s : State) : Nat :=
  match s.regs.status with
  | .timedOut => 0
  | .init | .valid | .poweredDown => s.regs.scnt.toNat

/-- STATUS as step 8 of a transfer finds it (R104). -/
def State.gateStatus (s : State) : Status :=
  match s.regs.status with
  | .timedOut => .init
  | .init => .init
  | .valid => .valid
  | .poweredDown => .poweredDown

/-- s after a command that writes nothing and answers `res`. -/
def State.answered (s : State) (res : Word) : State := { s with rsp := some res, trace := [] }

/-- The state after a command; a command that stopped would leave the state as it is. -/
def State.afterExec (i : Instr) (s : State) : State :=
  match exec i s with
  | .next t => t
  | .fault _ | .refused _ => s

/-- The state after `n` POLLs in a row. -/
def afterPolls : Nat → State → State
  | 0, s => s
  | n + 1, s => (afterPolls n s).afterExec .poll

/-- The transfers among the first `k` POLLs from s, counted from the last gate reset: the start of the run, or a transfer
that recovers from a timeout, which is itself the first one (R104, R147). -/
def transfersSince : Nat → State → Nat
  | 0, _ => 0
  | k + 1, s =>
    let u := afterPolls k s
    if u.TransferNext then
      match u.regs.status with
      | .timedOut => 1
      | .init | .valid | .poweredDown => transfersSince k s + 1
    else transfersSince k s

/-- The micro-states of a block's longest POLL (R109): 8, and 3 for each data bit and 2 for each gain pulse. -/
def longestPoll (p : Config.Params) : Nat := 8 + 3 * p.sampleBits + 2 * max p.pulses128 (max p.pulses32 p.pulses64)

/-- An i32 result: the unique number congruent to v modulo 2^32 in -2^31 .. 2^31 - 1 (wrap32 of R7). -/
def i32Of (v : Int) : Int := v.bmod (2 ^ 32)

/-- The bits of CMD_ARG that the command of an opcode reads, the others 0 (R83). -/
def operandBits (op : BitVec 5) (arg : Word) : Word :=
  if op = 0x03 then arg &&& 0x3
  else if op = 0x05 ∨ op = 0x13 then arg &&& 0xFF
  else if op = 0x0A ∨ op = 0x0D ∨ op = 0x0F then arg
  else 0

/-- The events of `n` data pulses whose bits are the next `n` draws of DOUT (R62). -/
def bitEvents (e : Env) (n : Nat) : List LineEvent :=
  (List.range n).flatMap fun j => [.drive true, .rdData (e.dataAhead j), .drive false]

/-- The events of `n` gain pulses (R62). -/
def pulseEvents (n : Nat) : List LineEvent :=
  (List.replicate n [LineEvent.drive true, LineEvent.drive false]).flatten

/-- The registers of R24 by name. -/
inductive RegName where
  | raw
  | smoothed
  | timestamp
  | convStart
  | status
  | gain
  | alpha
  | ruv
  | scnt
  | tare
  | adjuster
  | err
  | clkDrv
  deriving DecidableEq, Repr

/-- The write columns (w and w*) of the access matrix R41. -/
def mayWrite : Instr → List RegName
  | .poll => [.raw, .smoothed, .timestamp, .convStart, .status, .scnt, .clkDrv]
  | .setGain _ => [.status, .gain, .scnt, .err]
  | .setAlpha _ => [.alpha]
  | .tare _ => [.tare]
  | .setTare _ => [.tare]
  | .adjustTo _ _ => [.adjuster]
  | .setAdjuster _ => [.adjuster]
  | .getAdjusted _ => [.err]
  | .powerDown => [.clkDrv]
  | .powerUp => [.convStart, .status, .scnt, .clkDrv]
  | .setReadsUntilValid _ => [.ruv, .scnt]
  | .getStatus | .getErr | .getGain | .getAlpha | .getTimestamp | .getRaw _ | .getTare | .getRawMinusTare _
  | .getAdjuster | .getReadsUntilValid => []

/-- The two registers agree on everything except the registers named. -/
abbrev AgreeExcept (names : List RegName) (a b : Regs) : Prop :=
  (RegName.raw ∉ names → b.raw = a.raw) ∧ (RegName.smoothed ∉ names → b.smoothed = a.smoothed) ∧
  (RegName.timestamp ∉ names → b.timestamp = a.timestamp) ∧ (RegName.convStart ∉ names → b.convStart = a.convStart) ∧
  (RegName.status ∉ names → b.status = a.status) ∧ (RegName.gain ∉ names → b.gain = a.gain) ∧
  (RegName.alpha ∉ names → b.alpha = a.alpha) ∧ (RegName.ruv ∉ names → b.ruv = a.ruv) ∧
  (RegName.scnt ∉ names → b.scnt = a.scnt) ∧ (RegName.tare ∉ names → b.tare = a.tare) ∧
  (RegName.adjuster ∉ names → b.adjuster = a.adjuster) ∧ (RegName.err ∉ names → b.err = a.err) ∧
  (RegName.clkDrv ∉ names → b.clkDrv = a.clkDrv)

/-- A command that answers with no line event and no draw (R62): every command but POLL, POWER_DOWN and POWER_UP. -/
def leavesLinesAlone : Instr → Bool
  | .poll | .powerDown | .powerUp => false
  | .getStatus | .setGain _ | .getGain | .setAlpha _ | .getAlpha | .getTimestamp | .getRaw _ | .tare _ | .setTare _
  | .getTare | .getRawMinusTare _ | .adjustTo _ _ | .getAdjuster | .setAdjuster _ | .getAdjusted _
  | .setReadsUntilValid _ | .getReadsUntilValid | .getErr => true

/-- A command as R91 writes it. -/
def asmOf (i : Instr) : AsmCommand :=
  let operand : Option AsmOperand :=
    match i with
    | .setGain code => (gainOfCode code).map .gain
    | .setAlpha v | .setReadsUntilValid v => some (.integer v.toNat)
    | .setTare v | .setAdjuster v => some (.integer v.toInt)
    | .adjustTo _ v => some (.integer v.toInt)
    | .poll | .getStatus | .getGain | .getAlpha | .getTimestamp | .getRaw _ | .tare _ | .getTare | .getRawMinusTare _
    | .getAdjuster | .getAdjusted _ | .powerDown | .powerUp | .getReadsUntilValid | .getErr => none
  ⟨i.mnemonic, bitOfReading i.sel, operand⟩

end Sys2Proof.Machine
end

