-- ==== Sys2Proof/Certificates/Slice0/Obligations.lean ====
section
/-! DEFINITION. The statements for the provers. Each says in its docstring which rule of the spec it formalises. -/

open Sys2Proof Sys2Proof.Machine

/-! ### Encoding -/

/-- R80, R83, R85: decoding the words of a command gives the command back, with every operand at every value. -/
def Obligations.DecodeReadsBackEveryEncodedCommand : Prop :=
  ∀ i : Instr, decode (encode i).1 (encode i).2 = .ok i

/-- R80 to R88: the words that decode to a command are exactly its one CMD_WORD with any CMD_ARG that agrees with its
operand in the bits the command reads. -/
def Obligations.DecodeAcceptsExactlyTheEncodedWords : Prop :=
  ∀ (word arg : Word) (i : Instr),
    decode word arg = .ok i ↔ word = (encode i).1 ∧ i.arg = operandBits i.op arg

/-- R86, R87, R88: which words are rejected, and with which of the two causes. -/
def Obligations.DecodeRejectsByOpcodeThenReservedBits : Prop :=
  ∀ word arg : Word,
    (decode word arg = .error .illegalOpcode ↔ word.toNat % 32 = 0 ∨ 0x16 ≤ word.toNat % 32) ∧
    (decode word arg = .error .reservedField ↔
      (1 ≤ word.toNat % 32 ∧ word.toNat % 32 ≤ 0x15) ∧
        (64 ≤ word.toNat ∨
          (word.toNat / 32 % 2 = 1 ∧ word.toNat % 32 ∉ ([0x08, 0x09, 0x0C, 0x0D, 0x10] : List Nat))))

/-- R85: a CMD_WORD names a command exactly when its masked bits are the command's match. -/
def Obligations.CommandsAreNamedByMatchAndMask : Prop :=
  ∀ (word arg : Word) (row : OpcodeRow), row ∈ opcodeTable →
    ((∃ i, decode word arg = .ok i ∧ i.mnemonic = row.mnemonic) ↔ word &&& row.maskWord = row.matchWord)

/-- R83: the bits of CMD_ARG that a command ignores change nothing: neither what a word decodes to, nor what running it
does to any state. -/
def Obligations.IgnoredOperandBitsNeverMatter : Prop :=
  ∀ word arg : Word,
    decode word arg = decode word (operandBits (opField word) arg) ∧
    ∀ s : State, runCommand word arg s = runCommand word (operandBits (opField word) arg) s

/-- The encoding examples of R93, word by word; the raw words with any CMD_ARG. R93's last row gives ILLEGAL_GAIN for
3 / 3: that the decoder gives a SET_GAIN of code 0b11 and its run raises the error is the model's form of it (log 17,
DEDUCED), so the row is stated as both: what decode answers, and that running the words sets ERR[2] and answers 0. -/
def Obligations.EncodingExamplesDecodeAsTheSpecWritesThem : Prop :=
  decode 0x00000001 0 = .ok .poll ∧
  decode 0x00000008 0 = .ok (.getRaw .raw) ∧
  decode 0x00000028 0 = .ok (.getRaw .smoothed) ∧
  decode 0x0000000A 0xFFFFF600 = .ok (.setTare (BitVec.ofInt 32 (-2560))) ∧
  decode 0x0000000D 0 = .ok (.adjustTo .raw 0) ∧
  decode 0x00000005 0x000000C8 = .ok (.setAlpha 200) ∧
  decode 0x00000005 0x000001C8 = .ok (.setAlpha 200) ∧
  (∀ arg : Word,
    decode 0x00000021 arg = .error .reservedField ∧
    decode 0x00000016 arg = .error .illegalOpcode ∧
    decode 0x00000040 arg = .error .illegalOpcode ∧
    decode 0x00000041 arg = .error .reservedField) ∧
  decode 0x00000003 0x00000003 = .ok (.setGain 0b11) ∧
  (∀ s : State,
    runCommand 0x00000003 0x00000003 s =
      .next { s.answered 0 with regs := { s.regs with err := s.regs.err ||| 0b0100 } })

/-- R87, R88, R224: a rejected word sets its cause's ERR bit, answers 0, and has no other effect. -/
def Obligations.RejectedWordsSetOneErrorBitAndNothingElse : Prop :=
  ∀ (word arg : Word) (s : State),
    (word.toNat % 32 = 0 ∨ 0x16 ≤ word.toNat % 32 →
      runCommand word arg s =
        .next { s.answered 0 with regs := { s.regs with err := s.regs.err ||| 0b0001 } }) ∧
    ((1 ≤ word.toNat % 32 ∧ word.toNat % 32 ≤ 0x15) ∧
        (64 ≤ word.toNat ∨
          (word.toNat / 32 % 2 = 1 ∧ word.toNat % 32 ∉ ([0x08, 0x09, 0x0C, 0x0D, 0x10] : List Nat))) →
      runCommand word arg s =
        .next { s.answered 0 with regs := { s.regs with err := s.regs.err ||| 0b0010 } })

/-! ### The command port, steps and reset -/

/-- R20, R86: with CMD_VALID = 1, CMD_READY = 1 and RST = 0, a step runs the offered words; where they decode to i, the step
is exec of i. That a step is one transaction of the port (log 8, DEDUCED) and uses up one entry of the list of host levels
(log 9, DESIGN CHOICE) is the model's choice; so is the second clause, the words of an instruction as one number that
`withFetchWord` offers and `decodeTableWord` reads (log 20, DESIGN CHOICE). -/
def Obligations.StepRunsTheAcceptedCommand : Prop :=
  (∀ (s : State) (h : HostIn) (rest : List HostIn),
    s.hostIn = h :: rest → h.rst = .low → h.cmdValid = true → s.cmdReady = true →
      step s = runCommand h.cmdWord h.cmdArg { s with hostIn := rest } ∧
      ∀ i, decode h.cmdWord h.cmdArg = .ok i → step s = exec i { s with hostIn := rest }) ∧
  (∀ (s : State) (nbits w : Nat) (i : Instr),
    decodeTableWord nbits w = some i → step (s.withFetchWord nbits w) = exec i { s with rsp := none })

/-- R20: while a result is presented no command is accepted, whatever the host offers; the result is held until RSP_READY;
and a block that is offered nothing waits. That the step which delivers a result accepts no command (log 8, DEDUCED), that
a step uses up one entry of the list of host levels, and that an empty list is a wait (log 9, DESIGN CHOICE) are the
model's choices. -/
def Obligations.ResultIsHeldUntilTheHostTakesIt : Prop :=
  (∀ (s : State) (h : HostIn) (rest : List HostIn) (res : Word),
    s.hostIn = h :: rest → h.rst = .low → s.rsp = some res →
      step s = .next { s with hostIn := rest, rsp := if h.rspReady then none else some res }) ∧
  (∀ (s : State) (h : HostIn) (rest : List HostIn),
    s.hostIn = h :: rest → h.rst = .low → s.rsp = none → h.cmdValid = false →
      step s = .next { s with hostIn := rest }) ∧
  (∀ s : State, s.hostIn = [] → step s = .next s)

/-- Every step completes; no command word and no state stops the block. This is the model's own deduction from R90, R224
and R230 (log 7, DEDUCED), and it takes R224's effect of a command error against the treatment 'fault' that U1, U11 and
U12 advise (log 6, DEDUCED). -/
def Obligations.EveryStepCompletes : Prop :=
  ∀ s : State, ∃ t, step s = .next t

/-- R42, R260: RST = 1 at the step's edge gives every register its reset value, CONV_START the NOW_MS value of that cycle,
and leaves no result presented. The model's own in it: the parameters stand in State and are kept (log 2), CMD_READY is
the absence of a result (log 8), a step uses up one entry of the list of host levels (log 9), and the line trace is left
as it is (log 11). -/
def Obligations.ResetGivesEveryRegisterItsResetValue : Prop :=
  ∀ (s : State) (h : HostIn) (rest : List HostIn), s.hostIn = h :: rest → h.rst = .high →
    ∃ t, step s = .next t ∧
      t.regs =
        { raw := s.params.rawReset, smoothed := s.params.smoothedReset, timestamp := s.params.timestampReset,
          convStart := s.nowMs, status := .init, gain := s.params.gainInit, alpha := s.params.alphaReset,
          ruv := s.params.ruvInit, scnt := 0, tare := s.params.tareReset, adjuster := s.params.adjusterReset,
          err := 0, clkDrv := false } ∧
      t.rsp = none ∧ t.cmdReady = true ∧ t.hostIn = rest ∧ t.params = s.params ∧ t.trace = s.trace ∧
      t.env = s.env.after 0 0 1

/-- R260, R261: RST = 1 at any point inside a command leaves the reset values and no result; of the command nothing is
left. The model's own in it: a reset may land after any number of micro-states (log 10), the parameters are kept (log 2),
CMD_READY is the absence of a result (log 8), and a step uses up one entry of the list of host levels (log 9). -/
def Obligations.ResetInsideACommandLeavesOnlyResetValues : Prop :=
  ∀ (s : State) (h : HostIn) (rest : List HostIn) (k : Nat), s.hostIn = h :: rest → h.rst = .during k →
    ∃ t now, step s = .next t ∧ (∃ j ≤ 1, now = s.env.nowAhead j) ∧
      t.regs =
        { raw := s.params.rawReset, smoothed := s.params.smoothedReset, timestamp := s.params.timestampReset,
          convStart := now, status := .init, gain := s.params.gainInit, alpha := s.params.alphaReset,
          ruv := s.params.ruvInit, scnt := 0, tare := s.params.tareReset, adjuster := s.params.adjusterReset,
          err := 0, clkDrv := false } ∧
      t.rsp = none ∧ t.cmdReady = true ∧ t.hostIn = rest ∧ t.params = s.params

/-- R42 and R5: the values `State.reset` holds, and that its parameters are the source's literals, which are ones a claim
may assume. The parameters are the defaults of R5 (log 2; the literals log 19), CONV_START = 0 is the model's choice of
NOW_MS = 0 (log 3), and CMD_READY is the absence of a result (log 8). -/
def Obligations.ResetStateHoldsTheStatedValues : Prop :=
  State.reset.regs =
    { raw := 0, smoothed := 0, timestamp := 0, convStart := 0, status := .init, gain := .gain128, alpha := 0, ruv := 3,
      scnt := 0, tare := 0, adjuster := 1, err := 0, clkDrv := false } ∧
  State.reset.rsp = none ∧ State.reset.cmdReady = true ∧
  State.reset.params.SourceLiterals ∧ State.reset.params.Legal

/-- R26, R34, R42: the invariant holds after reset, for every NOW_MS and every parameter value a claim may assume
(log 19). -/
def Obligations.InvariantHoldsAfterReset : Prop :=
  ∀ (p : Config.Params) (now : Word), p.Legal → (State.resetAt p now).Inv

/-- R26, R34: every step keeps SCNT ≤ RUV, RAW's low part equal to RAW_RESET's (RAW[7:0] where SCALE is 256), and legal
parameters (log 19), from every state that has them. -/
def Obligations.EveryStepKeepsTheSettlingBoundAndTheRawLowByte : Prop :=
  ∀ s t : State, s.Inv → step s = .next t → t.Inv

/-- R37, R225, R228: without reset, a step keeps every set ERR bit and sets at most one more. A step is one transaction of
the port (logs 8, 9). -/
def Obligations.StepSetsAtMostOneErrorBitAndClearsNone : Prop :=
  ∀ (s t : State) (h : HostIn) (rest : List HostIn), s.hostIn = h :: rest → h.rst = .low → step s = .next t →
    t.regs.err = s.regs.err ∨ ∃ k, k < 4 ∧ t.regs.err = s.regs.err ||| BitVec.twoPow 4 k

/-- R5, R262, D28: no step changes the parameters, the source's literals among them (log 19). That they stand in State is
the model's choice (log 2). -/
def Obligations.StepKeepsTheInstanceParameters : Prop :=
  ∀ s t : State, step s = .next t → t.params = s.params

/-! ### All commands -/

/-- The write columns of R41, and R62: a command changes no register outside its columns, and a command other than POLL,
POWER_DOWN and POWER_UP takes no draw and makes no line event. -/
def Obligations.CommandsWriteOnlyTheirRegisters : Prop :=
  ∀ (i : Instr) (s t : State), exec i s = .next t →
    AgreeExcept (mayWrite i) s.regs t.regs ∧ t.hostIn = s.hostIn ∧ t.params = s.params ∧
    (leavesLinesAlone i = true → t.env = s.env ∧ t.trace = [])

/-- R38: which commands move the clock line, and where they leave it. A transfer has a pulse where the parameters are
legal (log 19). -/
def Obligations.ClockLineFollowsPowerCommandsAndTransfers : Prop :=
  ∀ (i : Instr) (s t : State), exec i s = .next t →
    (i = .powerDown → t.regs.clkDrv = true) ∧
    (i = .powerUp → t.regs.clkDrv = false) ∧
    (i = .poll → s.TransferNext → s.params.Legal → t.regs.clkDrv = false) ∧
    (i ≠ .powerDown → i ≠ .powerUp → ¬ (i = .poll ∧ s.TransferNext) → t.regs.clkDrv = s.regs.clkDrv)

/-- R147: SCNT falls only at the gate resets (POWER_UP, a legal SET_GAIN, a transfer that recovers from a timeout) and at
the clamp of SET_READS_UNTIL_VALID. Of a state with any SCNT and RUV. -/
def Obligations.SettlingCounterFallsOnlyAtGateResets : Prop :=
  ∀ (i : Instr) (s t : State), exec i s = .next t →
    i ≠ .powerUp → (∀ c, i = .setGain c → c = 0b11) → (∀ n, i ≠ .setReadsUntilValid n) →
    ¬ (i = .poll ∧ s.TransferNext ∧ s.regs.status = .timedOut) →
      s.regs.scnt ≤ t.regs.scnt

/-- R45: SCNT and CONV_START reach no result but POLL's: every other command answers the same, and writes the other
registers the same, whatever the two hold. -/
def Obligations.HiddenRegistersReachOnlyPoll : Prop :=
  ∀ (i : Instr) (s t u : State) (scnt : Byte) (conv : Word), i ≠ .poll → exec i s = .next t →
    exec i { s with regs := { s.regs with scnt := scnt, convStart := conv } } = .next u →
      u.rsp = t.rsp ∧ u.trace = t.trace ∧ u.env = t.env ∧ AgreeExcept [.scnt, .convStart] t.regs u.regs

/-- R68: every command but POLL and POWER_UP is idempotent, the raising ones too. -/
def Obligations.CommandsButPollAndPowerUpAreIdempotent : Prop :=
  ∀ (i : Instr) (s t : State), i ≠ .poll → i ≠ .powerUp → exec i s = .next t → exec i t = .next t

/-- R223, R236: from a state without errors, a well-formed command raises nothing, GET_ADJUSTED with ADJUSTER = 0 apart:
busy and settling POLLs, a coerced target and arithmetic wraps set no ERR bit. -/
def Obligations.WellFormedCommandsRaiseOnlyDivByZero : Prop :=
  ∀ (i : Instr) (s t : State), i.wellFormed = true → (∀ sel, i = .getAdjusted sel → s.regs.adjuster ≠ 0) →
    s.NoError → exec i s = .next t → t.NoError

/-! ### Reading access -/

/-- R84, R120 to R123, R152, R153, R174, R177, R203: the GET commands without arithmetic answer their register and change
nothing. -/
def Obligations.GetCommandsAnswerTheirRegister : Prop :=
  ∀ s : State,
    exec .getStatus s = .next (s.answered
      (match s.regs.status with | .init => 0 | .valid => 1 | .poweredDown => 2 | .timedOut => 3)) ∧
    exec .getGain s = .next (s.answered (match s.regs.gain with | .gain32 => 0 | .gain64 => 1 | .gain128 => 2)) ∧
    exec .getAlpha s = .next (s.answered (BitVec.ofNat 32 s.regs.alpha.toNat)) ∧
    exec .getReadsUntilValid s = .next (s.answered (BitVec.ofNat 32 s.regs.ruv.toNat)) ∧
    exec .getErr s = .next (s.answered (BitVec.ofNat 32 s.regs.err.toNat)) ∧
    exec .getTimestamp s = .next (s.answered s.regs.timestamp) ∧
    exec (.getRaw .raw) s = .next (s.answered s.regs.raw) ∧
    exec (.getRaw .smoothed) s = .next (s.answered s.regs.smoothed) ∧
    exec .getTare s = .next (s.answered s.regs.tare) ∧
    exec .getAdjuster s = .next (s.answered s.regs.adjuster)

/-! ### Calibration -/

/-- R7: trunc_div rounds toward zero. -/
def Obligations.TruncatedDivisionRoundsTowardZero : Prop :=
  ∀ a b : Int, b ≠ 0 →
    (truncDiv a b).natAbs = a.natAbs / b.natAbs ∧
    (truncDiv a b < 0 ↔ ((a < 0 ∧ 0 < b) ∨ (0 < a ∧ b < 0)) ∧ b.natAbs ≤ a.natAbs)

/-- R171, R175: GET_RAW_MINUS_TARE answers the difference wrapped to 32 bits, exact when it does not overflow, and changes
nothing; ADJUSTER plays no part. -/
def Obligations.RawMinusTareWrapsToThirtyTwoBits : Prop :=
  ∀ (sel : Reading) (s : State), ∃ res : Word,
    exec (.getRawMinusTare sel) s = .next (s.answered res) ∧
    (let d := (match sel with | .raw => s.regs.raw | .smoothed => s.regs.smoothed).toInt - s.regs.tare.toInt
     res.toInt = i32Of d ∧ (d.natAbs < 2 ^ 31 → res.toInt = d))

/-- R176: ADJUST_TO stores the truncated quotient of the tared reading by the target, where a target of 0 counts as 1,
and changes nothing else. -/
def Obligations.AdjustToStoresTheTruncatedQuotient : Prop :=
  ∀ (sel : Reading) (target : Word) (s : State), ∃ q : Word,
    exec (.adjustTo sel target) s = .next { s.answered 0 with regs := { s.regs with adjuster := q } } ∧
    q.toInt =
      i32Of (Int.tdiv
        (i32Of ((match sel with | .raw => s.regs.raw | .smoothed => s.regs.smoothed).toInt - s.regs.tare.toInt))
        (if target.toInt = 0 then 1 else target.toInt))

/-- R179: GET_ADJUSTED answers the truncated quotient of the tared reading by ADJUSTER and changes nothing; with
ADJUSTER = 0 it sets ERR[3], answers 0 and changes nothing else. -/
def Obligations.AdjustedReadingIsTheTruncatedQuotient : Prop :=
  ∀ (sel : Reading) (s : State),
    (s.regs.adjuster.toInt ≠ 0 → ∃ res : Word,
      exec (.getAdjusted sel) s = .next (s.answered res) ∧
      res.toInt =
        i32Of (Int.tdiv
          (i32Of ((match sel with | .raw => s.regs.raw | .smoothed => s.regs.smoothed).toInt - s.regs.tare.toInt))
          s.regs.adjuster.toInt)) ∧
    (s.regs.adjuster.toInt = 0 →
      exec (.getAdjusted sel) s =
        .next { s.answered 0 with regs := { s.regs with err := s.regs.err ||| 0b1000 } })

/-- R172, R173, R178: TARE copies the selected reading, SET_TARE and SET_ADJUSTER store any operand word, and each changes
nothing else. -/
def Obligations.CalibrationSettersStoreTheirValue : Prop :=
  ∀ (s : State) (value : Word),
    exec (.tare .raw) s = .next { s.answered 0 with regs := { s.regs with tare := s.regs.raw } } ∧
    exec (.tare .smoothed) s = .next { s.answered 0 with regs := { s.regs with tare := s.regs.smoothed } } ∧
    exec (.setTare value) s = .next { s.answered 0 with regs := { s.regs with tare := value } } ∧
    runCommand 0x0000000A value s = exec (.setTare value) s ∧
    exec (.setAdjuster value) s = .next { s.answered 0 with regs := { s.regs with adjuster := value } } ∧
    runCommand 0x0000000F value s = exec (.setAdjuster value) s

/-! ### The filter's setters, power and gain -/

/-- R150: SET_ALPHA stores the low byte of its operand word and changes nothing else. -/
def Obligations.SetAlphaStoresTheLowByte : Prop :=
  ∀ (s : State) (alpha : Byte) (arg : Word),
    exec (.setAlpha alpha) s = .next { s.answered 0 with regs := { s.regs with alpha := alpha } } ∧
    runCommand 0x00000005 arg s = exec (.setAlpha (BitVec.ofNat 8 (arg.toNat % 256))) s

/-- R151: SET_READS_UNTIL_VALID stores the low byte of its operand word in RUV, clamps SCNT to it, and changes nothing
else. -/
def Obligations.SetReadsUntilValidClampsTheCounter : Prop :=
  ∀ (s : State) (arg : Word), ∃ n c : Byte,
    n.toNat = arg.toNat % 256 ∧ c.toNat = min s.regs.scnt.toNat n.toNat ∧
    runCommand 0x00000013 arg s = exec (.setReadsUntilValid n) s ∧
    exec (.setReadsUntilValid n) s = .next { s.answered 0 with regs := { s.regs with ruv := n, scnt := c } }

/-- R202: SET_GAIN writes the gain of code CMD_ARG[1:0] and restarts the settling gate, also when the gain is the one
already held; code 0b11 sets ERR[2] and changes nothing else. -/
def Obligations.SetGainRestartsTheGateOrRaisesIllegalGain : Prop :=
  ∀ (s : State) (arg : Word),
    exec (.setGain 0b00) s =
      .next { s.answered 0 with regs := { s.regs with gain := .gain32, status := .init, scnt := 0 } } ∧
    exec (.setGain 0b01) s =
      .next { s.answered 0 with regs := { s.regs with gain := .gain64, status := .init, scnt := 0 } } ∧
    exec (.setGain 0b10) s =
      .next { s.answered 0 with regs := { s.regs with gain := .gain128, status := .init, scnt := 0 } } ∧
    exec (.setGain 0b11) s = .next { s.answered 0 with regs := { s.regs with err := s.regs.err ||| 0b0100 } } ∧
    runCommand 0x00000003 arg s = exec (.setGain (BitVec.ofNat 2 (arg.toNat % 4))) s

/-- R200: POWER_DOWN drives the clock line high; STATUS and everything else stay. -/
def Obligations.PowerDownOnlyRaisesTheClockLine : Prop :=
  ∀ s : State,
    exec .powerDown s =
      .next { s with regs := { s.regs with clkDrv := true }, rsp := some 0, trace := [.drive true] }

/-- R201: POWER_UP drives the clock line low, writes STATUS Init, SCNT 0 and CONV_START the sampled NOW_MS, and changes
nothing else. -/
def Obligations.PowerUpRestartsTheGateAndTheTimeout : Prop :=
  ∀ s : State,
    exec .powerUp s =
      .next
        { s with
          regs := { s.regs with clkDrv := false, status := .init, scnt := 0, convStart := s.nowMs }
          rsp := some 0
          trace := [.drive false, .time s.nowMs]
          env := s.env.after 0 0 1 }

/-- R113, R221, under W1 (R22): while the clock line is driven high and STATUS is PoweredDown, only POWER_UP and a legal
SET_GAIN change either. -/
def Obligations.UnderTheWiringPremisePoweredDownPersists : Prop :=
  ∀ (i : Instr) (s t : State), s.Wired → s.regs.clkDrv = true → s.regs.status = .poweredDown →
    i ≠ .powerUp → (∀ c, i = .setGain c → c = 0b11) → exec i s = .next t →
      t.regs.status = .poweredDown ∧ t.regs.clkDrv = true

/-- R200, R221, R270, under W1 (R22): POWER_DOWN leaves STATUS, and the POLL after it reports PoweredDown. -/
def Obligations.PollAfterPowerDownReportsPoweredDown : Prop :=
  ∀ s t : State, exec .powerDown s = .next t → t.Wired →
    t.regs.status = s.regs.status ∧
    ∃ u, exec .poll t = .next u ∧ u.regs = { s.regs with clkDrv := true, status := .poweredDown } ∧ u.rsp = some 1

/-! ### POLL -/

/-- R101: a POLL that reads the clock line high writes STATUS PoweredDown, answers 1 and does nothing else; one that reads
it low goes on to sample DOUT, whatever STATUS is. -/
def Obligations.PollReportsPowerDownOnAHighClockLine : Prop :=
  ∀ s : State,
    (s.clkLevel = true →
      exec .poll s =
        .next
          { s with
            regs := { s.regs with status := .poweredDown }
            rsp := some 1
            trace := [.rdClk true]
            env := s.env.after 1 0 0 }) ∧
    (s.clkLevel = false → ∃ t rest, exec .poll s = .next t ∧ t.trace = .rdClk false :: .rdData s.readyLevel :: rest)

/-- R102, R103: a POLL that reads DOUT high samples NOW_MS; it reports TimedOut when at least TIMEOUT_MS have passed since
CONV_START modulo 2^32, and is busy otherwise; it changes nothing else. TIMEOUT_MS is a parameter, 500 by default
(log 19). -/
def Obligations.PollReportsBusyOrTimedOut : Prop :=
  ∀ s : State, s.clkLevel = false → s.readyLevel = true →
    exec .poll s =
      .next
        { s with
          regs := if s.params.timeoutMs.toNat ≤ s.elapsedMs then { s.regs with status := .timedOut } else s.regs
          rsp := some (if s.params.timeoutMs.toNat ≤ s.elapsedMs then 1 else 0)
          trace := [.rdClk false, .rdData true, .time s.nowMs]
          env := s.env.after 1 1 1 }

/-- R103: with the true times a of CONV_START and b of the sample in milliseconds, both read as u32, Elapsed is b - a modulo
2^32: the true elapsed time when that is less than 2^32 ms, short of it by a multiple of 2^32 otherwise. The timeout compare of R102 is of that number with TIMEOUT_MS (a parameter,
log 19). -/
def Obligations.ElapsedIsTheTrueTimeModuloTheWrap : Prop :=
  ∀ (p : Config.Params) (r : Regs) (t : Word) (a b : Nat), a ≤ b → r.convStart = BitVec.ofNat 32 a → t = BitVec.ofNat 32 b →
    (r.elapsed t).toNat = (b - a) % 2 ^ 32 ∧ (b - a < 2 ^ 32 → (r.elapsed t).toNat = b - a) ∧
    (r.timedOutAt p t = true ↔ p.timeoutMs.toNat ≤ (b - a) % 2 ^ 32)

/-- R105, R106, R108, R38, R41: the registers a transfer writes before the settling gate, and the six it keeps. Where
SCALE is 2^k and SAMPLE_BITS is 32 - k (k = 8 with the source's literals, log 19), RAW's bits from k up are the bits
sampled after the step-2 sample, the first one in RAW[31], and those below k, RAW[7:0], are kept. TIMESTAMP takes the old
CONV_START, CONV_START the sampled NOW_MS, and the clock line ends low. GAIN, ALPHA, RUV, TARE, ADJUSTER and ERR are kept.
STATUS, SCNT and SMOOTHED are stated in TransferCountsSeedsOrSmooths. -/
def Obligations.TransferWritesTheReadingAndKeepsSixRegisters : Prop :=
  ∀ s : State, s.TransferNext → ∃ t, exec .poll s = .next t ∧
    (∀ k, s.params.scale = 2 ^ k → s.params.sampleBits + k = 32 →
      (∀ j < s.params.sampleBits, t.regs.raw.getLsbD (k + j) = s.env.dataAhead (s.params.sampleBits - j)) ∧
      ∀ j < k, t.regs.raw.getLsbD j = s.regs.raw.getLsbD j) ∧
    t.regs.timestamp = s.regs.convStart ∧ t.regs.convStart = s.nowMs ∧ (s.params.Legal → t.regs.clkDrv = false) ∧
    t.regs.gain = s.regs.gain ∧ t.regs.alpha = s.regs.alpha ∧ t.regs.ruv = s.regs.ruv ∧ t.regs.tare = s.regs.tare ∧
    t.regs.adjuster = s.regs.adjuster ∧ t.regs.err = s.regs.err ∧
    t.env = s.env.after 1 (s.params.sampleBits + 1) 1 ∧ t.hostIn = s.hostIn ∧ t.params = s.params

/-- R105, R108: every transfer, a held one too, copies the old CONV_START to TIMESTAMP and then writes CONV_START with the
NOW_MS sampled after the last pulse. There is a last pulse where the parameters are legal (log 19). -/
def Obligations.TransferStampsTheOldStartAndRecordsTheNewOne : Prop :=
  ∀ s : State, s.TransferNext → ∃ t, exec .poll s = .next t ∧
    t.regs.timestamp = s.regs.convStart ∧ t.regs.convStart = s.nowMs ∧
    (∃ events, t.trace = events ++ [.time s.nowMs]) ∧
    (s.params.Legal → ∃ events, t.trace = events ++ [.drive true, .drive false, .time s.nowMs])

/-- R25, R106: as an i32, RAW after a transfer is the sample, SAMPLE_BITS bits with the first one sampled as the sign,
times SCALE plus the kept low part. With the source's literals that is the 24-bit sample times 256 plus RAW[7:0]; for which
literals a reading is an i32 is the model's premise (log 19). -/
def Obligations.ReadingIsTheSampleTimesScale : Prop :=
  ∀ s : State, s.params.Legal → s.TransferNext →
    ∃ (t : State) (sample : BitVec s.params.sampleBits), exec .poll s = .next t ∧
      (∀ j < s.params.sampleBits, sample.getLsbD j = s.env.dataAhead (s.params.sampleBits - j)) ∧
      t.regs.raw.toInt = sample.toInt * s.params.scale + s.regs.raw.toInt % s.params.scale ∧
      (s.params.scale = 256 → t.regs.raw.toInt = sample.toInt * 256 + (s.regs.raw.toNat % 256 : Nat))

/-- R62, R106, R107: the line events of a transfer in order, each data bit sampled between the high and the low level of
its pulse, PULSES(GAIN) pulses without a sample after them. With the source's literals (the parameters' defaults, log 19)
that is 25, 26 or 27 pulses in total and 25 samples of DOUT. -/
def Obligations.TransferDrivesItsPulsesInOrder : Prop :=
  ∀ s : State, s.TransferNext → ∃ t, exec .poll s = .next t ∧
    t.trace =
      [.rdClk false, .rdData false] ++
      (List.range s.params.sampleBits).flatMap
        (fun j => [.drive true, .rdData (s.env.dataAhead (1 + j)), .drive false]) ++
      (List.replicate
        (match s.regs.gain with
          | .gain128 => s.params.pulses128
          | .gain32 => s.params.pulses32
          | .gain64 => s.params.pulses64)
        [LineEvent.drive true, LineEvent.drive false]).flatten ++
      [.time s.nowMs] ∧
    (s.params.SourceLiterals →
      t.trace.count (.drive true) = (match s.regs.gain with | .gain128 => 25 | .gain32 => 26 | .gain64 => 27) ∧
      t.trace.count (.rdData true) + t.trace.count (.rdData false) = 25)

/-- R104, R111, R144 to R146: the settling gate of a transfer: it counts and holds, seeds, or smooths. The smoothing is
exact with SCALE = 256 and with every SCALE no ALPHA reaches (log 19). -/
def Obligations.TransferCountsSeedsOrSmooths : Prop :=
  ∀ s : State, s.TransferNext → ∃ t, exec .poll s = .next t ∧
    (if s.gateCount + 1 < s.regs.ruv.toNat then
      t.regs.scnt.toNat = s.gateCount + 1 ∧ t.regs.smoothed = s.regs.smoothed ∧ t.regs.status = s.gateStatus ∧
        t.rsp = some 0
    else if s.gateCount < s.regs.ruv.toNat then
      t.regs.scnt.toNat = s.gateCount + 1 ∧ t.regs.smoothed = t.regs.raw ∧ t.regs.status = .valid ∧ t.rsp = some 1
    else
      t.regs.scnt.toNat = s.gateCount ∧
        (s.params.Legal → t.regs.smoothed.toInt =
          s.regs.smoothed.toInt +
            Int.tdiv (t.regs.raw.toInt - s.regs.smoothed.toInt) s.params.scale * (s.regs.alpha.toNat : Int)) ∧
        t.regs.status = .valid ∧ t.rsp = some 1)

/-- R142, R143: a steady-state transfer leaves SMOOTHED between its old value and the new RAW, unchanged when they are
less than SCALE apart (256 in R143; a parameter, log 19) or ALPHA = 0, and moves it by a multiple of ALPHA. -/
def Obligations.SmoothingStaysBetweenTheOldValueAndTheReading : Prop :=
  ∀ s : State, s.params.Legal → s.TransferNext → s.regs.ruv.toNat ≤ s.gateCount → ∃ t, exec .poll s = .next t ∧
    min s.regs.smoothed.toInt t.regs.raw.toInt ≤ t.regs.smoothed.toInt ∧
    t.regs.smoothed.toInt ≤ max s.regs.smoothed.toInt t.regs.raw.toInt ∧
    ((t.regs.raw.toInt - s.regs.smoothed.toInt).natAbs < s.params.scale → t.regs.smoothed = s.regs.smoothed) ∧
    (s.regs.alpha = 0 → t.regs.smoothed = s.regs.smoothed) ∧
    ((s.regs.alpha.toNat : Int) ∣ t.regs.smoothed.toInt - s.regs.smoothed.toInt)

/-- The POLL rows of the transition relation R113, with done. TIMEOUT_MS is a parameter, 500 by default (log 19). -/
def Obligations.PollMovesStatusByTheTransitionTable : Prop :=
  ∀ s : State, ∃ t, exec .poll s = .next t ∧
    (t.regs.status, t.rsp) =
      if s.clkLevel then (.poweredDown, some 1)
      else if s.readyLevel then
        (if s.params.timeoutMs.toNat ≤ s.elapsedMs then (.timedOut, some 1) else (s.regs.status, some 0))
      else if s.gateCount + 1 < s.regs.ruv.toNat then (s.gateStatus, some 0)
      else (.valid, some 1)

/-- R147, R148: from a gate reset (SCNT = 0, or a transfer about to recover from a timeout) with RUV = n ≥ 1, over any run
of POLLs, c being the transfers since the gate reset: SCNT is the lesser of c and n; a POLL that is no transfer does not
count and leaves SCNT and SMOOTHED; transfers 1 to n-1 answer 0, transfer n answers 1 with STATUS Valid and seeds SMOOTHED,
and every later one answers 1 with STATUS Valid and smooths (exactly, where the parameters are legal: log 19). -/
def Obligations.ReadingsBecomeValidAtTheThresholdTransfer : Prop :=
  ∀ (s : State) (n k : Nat),
    (s.regs.scnt = 0 ∨ (s.regs.status = .timedOut ∧ s.TransferNext)) → s.regs.ruv.toNat = n → 1 ≤ n →
    let u := afterPolls k s
    let t := afterPolls (k + 1) s
    let c := transfersSince (k + 1) s
    exec .poll u = .next t ∧ t.regs.scnt.toNat = min c n ∧
    (¬ u.TransferNext → c = transfersSince k s ∧ t.regs.scnt = u.regs.scnt ∧ t.regs.smoothed = u.regs.smoothed) ∧
    (u.TransferNext →
      (c < n → t.rsp = some 0) ∧
      (c = n → t.rsp = some 1 ∧ t.regs.status = .valid ∧ t.regs.smoothed = t.regs.raw) ∧
      (n < c → t.rsp = some 1 ∧ t.regs.status = .valid ∧
        (s.params.Legal → t.regs.smoothed.toInt =
          u.regs.smoothed.toInt +
            Int.tdiv (t.regs.raw.toInt - u.regs.smoothed.toInt) s.params.scale * (s.regs.alpha.toNat : Int))))

/-- R151, R269: raising RUV while Valid reopens the gate; the next transfer answers 0 and STATUS still says Valid. -/
def Obligations.RaisingTheThresholdHoldsWhileStatusStaysValid : Prop :=
  ∀ (s t : State) (n : Byte), s.regs.status = .valid → s.regs.scnt.toNat + 1 < n.toNat →
    exec (.setReadsUntilValid n) s = .next t → t.TransferNext →
      ∃ u, exec .poll t = .next u ∧ u.rsp = some 0 ∧ u.regs.status = .valid ∧
        u.regs.scnt.toNat = s.regs.scnt.toNat + 1

/-! ### The sequencer -/

/-- R46, R109: the micro-states of the sequencer, run from CHK_CLK, end within 86 of them, in the state that the atomic POLL
gives: registers, draws, line trace and result. 86 is the bound with the source's literals; the bound for others, of which
the legal ones have a bit and a gain pulse to drive, is `longestPoll` (log 19). -/
def Obligations.SequencerRunsToTheAtomicPoll : Prop :=
  ∀ s : State, s.params.Legal → ∃ t, exec .poll s = .next t ∧
    (∀ n, longestPoll s.params ≤ n → (microRun n (seqStart s)).micro = .idle ∧ (microRun n (seqStart s)).m = t) ∧
    (s.params.SourceLiterals → longestPoll s.params = 86)

/-- R109: the longest path, a Gain64 transfer whose gate passes, reaches RESPOND as its 86th micro-state with the source's
literals; and with any legal ones (log 19) a transfer whose gate passes takes 4 + 3 · SAMPLE_BITS + 2 · PULSES(GAIN) + 4
micro-states. -/
def Obligations.LongestPollTakesEightySixMicroStates : Prop :=
  ∀ s : State, s.params.Legal → s.TransferNext → ¬ s.gateCount + 1 < s.regs.ruv.toNat →
    (∀ n, n = 4 + 3 * s.params.sampleBits + 2 * pulses s.params s.regs.gain + 4 →
      (microRun (n - 1) (seqStart s)).micro = .respond ∧ (microRun n (seqStart s)).micro = .idle) ∧
    (s.params.SourceLiterals → s.regs.gain = .gain64 →
      (microRun 85 (seqStart s)).micro = .respond ∧ (microRun 86 (seqStart s)).micro = .idle)

/-- R109, R271: a transfer takes at least T_HIGH + T_LOW cycles for each of its pulses. T_HIGH and T_LOW are OPEN; the least
cycles of a micro-state and of a run, `Micro.minCycles` and `minCyclesOf`, are the model's own form of them (log 16, DESIGN
CHOICE). The number of pulses is by the parameters (log 19). -/
def Obligations.TransferTakesAtLeastItsPulseTimes : Prop :=
  ∀ (s : State) (tHigh tLow : Nat), s.params.Legal → s.TransferNext →
    (s.params.sampleBits + pulses s.params s.regs.gain) * (tHigh + tLow) ≤
      minCyclesOf tHigh tLow (longestPoll s.params) (seqStart s)

/-! ### Notation -/

/-- R91: the assembler writes the words of every well-formed command. -/
def Obligations.AssemblerWritesEveryWellFormedCommand : Prop :=
  ∀ i : Instr, i.wellFormed = true → assemble (asmOf i) = .ok (encode i)

/-- R92: the words of the pseudo-instructions, and some lines of R93 and of the programs of 95_test_vectors.md. -/
def Obligations.AssemblerLinesGiveTheWordsOfTheSpec : Prop :=
  assembleLine "GET_SMOOTHED" = .ok (0x00000028, 0) ∧
  assembleLine "TARE_SMOOTHED" = .ok (0x00000029, 0) ∧
  assembleLine "SELECT_A128" = .ok (0x00000003, 0x00000002) ∧
  assembleLine "SELECT_A64" = .ok (0x00000003, 0x00000001) ∧
  assembleLine "SELECT_B32" = .ok (0x00000003, 0x00000000) ∧
  assembleLine "SET_TARE #-2560" = .ok (0x0000000A, 0xFFFFF600) ∧
  assembleLine "loop:   POLL      ; 0x00000001" = .ok (0x00000001, 0) ∧
  assembleLine "SET_ALPHA #0x1C8" = .error .operandDoesNotFit ∧
  assembleLine "SET_GAIN #3" = .error .operandDoesNotFit ∧
  assembleLine "POLL.S" = .error .selectNotTaken ∧
  assembleLine "GET_RAW #1" = .error .operandNotTaken
end

