-- ==== Sys2Proof/Laws/State.lean ====
section
/-! SUPPORT. Each named update of State, field by field: what it writes and what it leaves. -/

namespace Sys2Proof.Machine

variable (s : State)

@[simp] theorem withRegs_regs (r : Regs) : (s.withRegs r).regs = r := rfl
@[simp] theorem withRegs_rsp (r : Regs) : (s.withRegs r).rsp = s.rsp := rfl
@[simp] theorem withRegs_trace (r : Regs) : (s.withRegs r).trace = s.trace := rfl
@[simp] theorem withRegs_env (r : Regs) : (s.withRegs r).env = s.env := rfl
@[simp] theorem withRegs_hostIn (r : Regs) : (s.withRegs r).hostIn = s.hostIn := rfl
@[simp] theorem withRegs_params (r : Regs) : (s.withRegs r).params = s.params := rfl

@[simp] theorem beginCommand_regs : s.beginCommand.regs = s.regs := rfl
@[simp] theorem beginCommand_rsp : s.beginCommand.rsp = s.rsp := rfl
@[simp] theorem beginCommand_trace : s.beginCommand.trace = [] := rfl
@[simp] theorem beginCommand_env : s.beginCommand.env = s.env := rfl
@[simp] theorem beginCommand_hostIn : s.beginCommand.hostIn = s.hostIn := rfl
@[simp] theorem beginCommand_params : s.beginCommand.params = s.params := rfl

@[simp] theorem emit_regs (e : LineEvent) : (s.emit e).regs = s.regs := rfl
@[simp] theorem emit_rsp (e : LineEvent) : (s.emit e).rsp = s.rsp := rfl
@[simp] theorem emit_trace (e : LineEvent) : (s.emit e).trace = s.trace ++ [e] := rfl
@[simp] theorem emit_env (e : LineEvent) : (s.emit e).env = s.env := rfl
@[simp] theorem emit_hostIn (e : LineEvent) : (s.emit e).hostIn = s.hostIn := rfl
@[simp] theorem emit_params (e : LineEvent) : (s.emit e).params = s.params := rfl

@[simp] theorem respond_regs (res : Word) : (s.respond res).regs = s.regs := rfl
@[simp] theorem respond_rsp (res : Word) : (s.respond res).rsp = some res := rfl
@[simp] theorem respond_trace (res : Word) : (s.respond res).trace = s.trace := rfl
@[simp] theorem respond_env (res : Word) : (s.respond res).env = s.env := rfl
@[simp] theorem respond_hostIn (res : Word) : (s.respond res).hostIn = s.hostIn := rfl
@[simp] theorem respond_params (res : Word) : (s.respond res).params = s.params := rfl

@[simp] theorem sampleClk_regs : s.sampleClk.regs = s.regs := rfl
@[simp] theorem sampleClk_rsp : s.sampleClk.rsp = s.rsp := rfl
@[simp] theorem sampleClk_trace : s.sampleClk.trace = s.trace ++ [.rdClk s.clkLevel] := rfl
@[simp] theorem sampleClk_env : s.sampleClk.env = s.env.after 1 0 0 := rfl
@[simp] theorem sampleClk_hostIn : s.sampleClk.hostIn = s.hostIn := rfl
@[simp] theorem sampleClk_params : s.sampleClk.params = s.params := rfl

@[simp] theorem sampleData_regs : s.sampleData.regs = s.regs := rfl
@[simp] theorem sampleData_rsp : s.sampleData.rsp = s.rsp := rfl
@[simp] theorem sampleData_trace : s.sampleData.trace = s.trace ++ [.rdData s.dataLevel] := rfl
@[simp] theorem sampleData_env : s.sampleData.env = s.env.after 0 1 0 := rfl
@[simp] theorem sampleData_hostIn : s.sampleData.hostIn = s.hostIn := rfl
@[simp] theorem sampleData_params : s.sampleData.params = s.params := rfl

@[simp] theorem sampleNow_regs : s.sampleNow.regs = s.regs := rfl
@[simp] theorem sampleNow_rsp : s.sampleNow.rsp = s.rsp := rfl
@[simp] theorem sampleNow_trace : s.sampleNow.trace = s.trace ++ [.time s.nowMs] := rfl
@[simp] theorem sampleNow_env : s.sampleNow.env = s.env.after 0 0 1 := rfl
@[simp] theorem sampleNow_hostIn : s.sampleNow.hostIn = s.hostIn := rfl
@[simp] theorem sampleNow_params : s.sampleNow.params = s.params := rfl

@[simp] theorem drive_regs (b : Bool) : (s.drive b).regs = { s.regs with clkDrv := b } := rfl
@[simp] theorem drive_rsp (b : Bool) : (s.drive b).rsp = s.rsp := rfl
@[simp] theorem drive_trace (b : Bool) : (s.drive b).trace = s.trace ++ [.drive b] := rfl
@[simp] theorem drive_env (b : Bool) : (s.drive b).env = s.env := rfl
@[simp] theorem drive_hostIn (b : Bool) : (s.drive b).hostIn = s.hostIn := rfl
@[simp] theorem drive_params (b : Bool) : (s.drive b).params = s.params := rfl

@[simp] theorem writeSample_regs (x : Sample) :
    (s.writeSample x).regs = { s.regs with raw := placeSample s.params x s.regs.raw } := rfl
@[simp] theorem writeSample_rsp (x : Sample) : (s.writeSample x).rsp = s.rsp := rfl
@[simp] theorem writeSample_trace (x : Sample) : (s.writeSample x).trace = s.trace := rfl
@[simp] theorem writeSample_env (x : Sample) : (s.writeSample x).env = s.env := rfl
@[simp] theorem writeSample_hostIn (x : Sample) : (s.writeSample x).hostIn = s.hostIn := rfl
@[simp] theorem writeSample_params (x : Sample) : (s.writeSample x).params = s.params := rfl

@[simp] theorem applyReset_regs : s.applyReset.regs = Regs.reset s.params s.nowMs := rfl
@[simp] theorem applyReset_rsp : s.applyReset.rsp = none := rfl
@[simp] theorem applyReset_trace : s.applyReset.trace = s.trace := rfl
@[simp] theorem applyReset_env : s.applyReset.env = s.env.after 0 0 1 := rfl
@[simp] theorem applyReset_hostIn : s.applyReset.hostIn = s.hostIn := rfl
@[simp] theorem applyReset_params : s.applyReset.params = s.params := rfl

/-- Two states with the same fields are the same. -/
theorem State.eq_of_fields {s t : State} (h1 : s.regs = t.regs) (h2 : s.rsp = t.rsp) (h3 : s.trace = t.trace)
    (h4 : s.env = t.env) (h5 : s.hostIn = t.hostIn) (h6 : s.params = t.params) : s = t := by
  cases s; cases t; simp_all

end Sys2Proof.Machine
end

