-- ==== Sys2Proof/Laws/Ops.lean ====
section
/-! SUPPORT. What the shared operations do: draws, levels, results and raised errors. -/

namespace Sys2Proof.Machine

variable {α : Type}

@[simp] theorem Stream.after_zero (d : Stream α) : d.after 0 = d := by simp [Stream.after]

@[simp] theorem Stream.after_after (d : Stream α) (m n : Nat) : (d.after m).after n = d.after (m + n) := by
  simp [Stream.after, Nat.add_assoc]

@[simp] theorem Stream.ahead_after (d : Stream α) (free : Nat → α) (m n : Nat) :
    (d.after m).ahead free n = d.ahead free (m + n) := by
  simp [Stream.ahead, Stream.after, Nat.add_assoc]

@[simp] theorem Env.after_zero (e : Env) : e.after 0 0 0 = e := by simp [Env.after]

@[simp] theorem Env.after_after (e : Env) (c d t c' d' t' : Nat) :
    (e.after c d t).after c' d' t' = e.after (c + c') (d + d') (t + t') := by simp [Env.after]

@[simp] theorem Env.clkAhead_after (e : Env) (c d t n : Nat) : (e.after c d t).clkAhead n = e.clkAhead (c + n) := by
  simp [Env.after, Env.clkAhead]

@[simp] theorem Env.dataAhead_after (e : Env) (c d t n : Nat) :
    (e.after c d t).dataAhead n = e.dataAhead (d + n) := by simp [Env.after, Env.dataAhead]

@[simp] theorem Env.nowAhead_after (e : Env) (c d t n : Nat) : (e.after c d t).nowAhead n = e.nowAhead (t + n) := by
  simp [Env.after, Env.nowAhead]

/-- A draw the environment has lined up is the value sampled. -/
theorem Stream.ahead_zero_cons (x : α) (xs : List α) (n : Nat) (free : Nat → α) :
    (⟨x :: xs, n⟩ : Stream α).ahead free 0 = x := rfl

/-- `finish` always answers a next state, and this is all it does. -/
theorem finish_eq (s : State) (r : Regs) (res : Word) :
    s.finish r res = .next { s with regs := r, rsp := some res, trace := [] } := rfl

/-- `raise` sets one ERR bit, answers RES = 0, makes no line event, and changes nothing else (R224). -/
theorem raise_eq (s : State) (c : Cause) :
    s.raise c = .next { s with regs := { s.regs with err := s.regs.errWith c }, rsp := some 0, trace := [] } := rfl

/-- Raising a cause keeps every ERR bit that is set (R224, R228). -/
theorem errWith_keeps (r : Regs) (c : Cause) : r.err &&& r.errWith c = r.err := by
  ext i
  simp only [Regs.errWith, BitVec.getElem_and, BitVec.getElem_or]
  cases r.err[i] <;> simp

/-- `wrap32` is the balanced remainder modulo 2^32 (R7). -/
theorem wrap32_toInt (v : Int) : (wrap32 v).toInt = v.bmod (2 ^ 32) := by
  rw [wrap32, BitVec.toInt_ofInt]

/-- `wrap32` keeps every i32. -/
theorem wrap32_toInt_of_range (v : Int) (lo : -2 ^ 31 ≤ v) (hi : v < 2 ^ 31) : (wrap32 v).toInt = v := by
  rw [wrap32_toInt]
  apply Int.bmod_eq_of_le <;> omega

/-- A code names a gain exactly when it is that gain's code (R31). -/
theorem gainOfCode_eq_some (code : BitVec 2) (g : GainMode) : gainOfCode code = some g ↔ code = gainCode g := by
  cases g <;> revert code <;> decide

/-- The one code without a gain is 0b11 (R31). -/
theorem gainOfCode_eq_none (code : BitVec 2) : gainOfCode code = none ↔ code = 0b11#2 := by
  revert code
  decide

end Sys2Proof.Machine
end

