-- ==== Sys2Proof/Laws/Acquisition.lean ====
section
/-! SUPPORT. What the parts of POLL do: shifting in the bits, the gain pulses, the transfer, the settling gate, and one
inversion lemma for the whole POLL. -/

namespace Sys2Proof.Machine

theorem getElem_setSampleBit (x : Sample) (i : Nat) (b : Bool) (j : Nat) (hj : j < 32) :
    (setSampleBit x i b)[j] = if j = i then b else x[j] := by
  by_cases h : i = j
  · subst h; cases b <;> simp [setSampleBit]
  · have h' : j ≠ i := fun e => h e.symm
    cases b <;> simp [setSampleBit, h']

/-- A sample of n bits times c, plus a low part below c, is an i32 where c times 2^n is at most 2^32, so `placeSample`
stores it exactly (R25, R106). -/
theorem placeSample_toInt (p : Config.Params) (hp : p.Legal) (x : Sample) (raw : Word) :
    (placeSample p x raw).toInt = (x.setWidth p.sampleBits).toInt * p.scale + raw.toInt % p.scale := by
  obtain ⟨hn, hc, hw, -⟩ := hp
  have hc0 : (0 : Int) < p.scale := by omega
  have lo := BitVec.le_toInt (x.setWidth p.sampleBits)
  have hi := BitVec.toInt_lt (x := x.setWidth p.sampleBits)
  have hl := Int.emod_nonneg raw.toInt hc0.ne'
  have hl' := Int.emod_lt_of_pos raw.toInt hc0
  obtain ⟨m, hm⟩ := Nat.exists_eq_add_of_le hn
  rw [hm, Nat.add_comm, Nat.pow_succ, ← Nat.mul_assoc] at hw
  rw [show p.sampleBits - 1 = m by omega] at lo hi
  have hw' : (p.scale : Int) * 2 ^ m ≤ 2 ^ 31 := by exact_mod_cast (by omega : p.scale * 2 ^ m ≤ 2 ^ 31)
  apply wrap32_toInt_of_range <;> nlinarith

/-- The low part of RAW is kept (R26). -/
theorem placeSample_low (p : Config.Params) (hp : p.Legal) (x : Sample) (raw : Word) :
    (placeSample p x raw).toInt % p.scale = raw.toInt % p.scale := by
  rw [placeSample_toInt p hp]
  simp

/-- `placeSample_toInt` of the patterns, where SCALE is 2^k and SAMPLE_BITS the other 32 - k bits. -/
theorem placeSample_toNat (p : Config.Params) (k : Nat) (hs : p.scale = 2 ^ k) (hn : p.sampleBits + k = 32)
    (x : Sample) (raw : Word) :
    (placeSample p x raw).toNat = x.toNat % 2 ^ p.sampleBits * 2 ^ k + raw.toNat % 2 ^ k := by
  have hw : (2 : Int) ^ 32 = 2 ^ p.sampleBits * 2 ^ k := by rw [← pow_add, hn]
  have hraw : raw.toInt % 2 ^ k = ((raw.toNat % 2 ^ k : Nat) : Int) := by
    rw [BitVec.toInt_eq_toNat_cond]
    split
    · simp
    · rw [show ((2 ^ 32 : Nat) : Int) = 2 ^ p.sampleBits * 2 ^ k by rw [← hw]; rfl]
      simp
  have hlt : x.toNat % 2 ^ p.sampleBits * 2 ^ k + raw.toNat % 2 ^ k < 2 ^ 32 := by
    have h1 := Nat.mod_lt x.toNat (Nat.two_pow_pos p.sampleBits)
    have h2 := Nat.mod_lt raw.toNat (Nat.two_pow_pos k)
    have h3 : 2 ^ 32 = 2 ^ p.sampleBits * 2 ^ k := by exact_mod_cast hw
    nlinarith
  have hv : ((x.setWidth p.sampleBits).toInt * p.scale + raw.toInt % p.scale) % 2 ^ 32 =
      ((x.toNat % 2 ^ p.sampleBits * 2 ^ k + raw.toNat % 2 ^ k : Nat) : Int) % 2 ^ 32 := by
    rw [hs, show ((2 ^ k : Nat) : Int) = 2 ^ k by simp, hraw, BitVec.toInt_eq_toNat_cond, BitVec.toNat_setWidth]
    split
    · push_cast; rfl
    · rw [sub_mul, sub_add_eq_add_sub,
        show ((2 ^ p.sampleBits : Nat) : Int) * 2 ^ k = 2 ^ 32 by rw [hw]; simp, Int.sub_emod_right]
      push_cast; rfl
  rw [Int.emod_eq_of_lt (Int.natCast_nonneg _) (by exact_mod_cast hlt)] at hv
  rw [placeSample, wrap32, BitVec.toNat_ofInt, show ((2 ^ 32 : Nat) : Int) = 2 ^ 32 by rfl, hv, Int.toNat_natCast]

/-- Where SCALE is 2^k and SAMPLE_BITS the other 32 - k bits, RAW becomes R106's pattern: the sample from bit k up, the
old bits below. -/
theorem getLsbD_placeSample (p : Config.Params) (k : Nat) (hs : p.scale = 2 ^ k) (hn : p.sampleBits + k = 32)
    (x : Sample) (raw : Word) (j : Nat) (hj : j < 32) :
    (placeSample p x raw).getLsbD j = if j < k then raw.getLsbD j else x.getLsbD (j - k) := by
  simp only [← BitVec.testBit_toNat]
  rw [placeSample_toNat p k hs hn, Nat.mul_comm,
    Nat.testBit_two_pow_mul_add _ (Nat.mod_lt _ (Nat.two_pow_pos k))]
  by_cases h : j < k
  · simp [h, Nat.testBit_mod_two_pow]
  · simp [h, Nat.testBit_mod_two_pow, show j - k < p.sampleBits by omega]

theorem bitEvents_succ (e : Env) (n : Nat) :
    bitEvents e (n + 1) =
      [.drive true, .rdData (e.dataAhead 0), .drive false] ++ bitEvents (e.after 0 1 0) n := by
  simp [bitEvents, List.range_succ_eq_map, List.flatMap_map, Nat.add_comm]

/-- What `n` data pulses do (R106): n draws of DOUT are taken and recorded between a high and a low level, bit n-1 of the
sample first; no register but CLK_DRV is written. -/
theorem shiftBits_spec (n : Nat) (x : Sample) (s : State) :
    (shiftBits n x s).2 =
      { s with
        regs := if n = 0 then s.regs else { s.regs with clkDrv := false }
        env := s.env.after 0 n 0
        trace := s.trace ++ bitEvents s.env n } ∧
    ∀ j (_ : j < 32), (shiftBits n x s).1[j] = if j < n then s.env.dataAhead (n - 1 - j) else x[j] := by
  induction n generalizing x s with
  | zero => constructor <;> simp [shiftBits, bitEvents]
  | succ n ih =>
    obtain ⟨hs, hb⟩ := ih (setSampleBit x n (s.drive true).dataLevel) ((s.drive true).sampleData.drive false)
    constructor
    · rw [shiftBits, hs]
      apply State.eq_of_fields <;> simp [bitEvents_succ, State.dataLevel, Nat.add_comm]
    · intro j hj
      rw [shiftBits, hb j hj, getElem_setSampleBit]
      by_cases h1 : j < n
      · simp [h1, Nat.lt_succ_of_lt h1, show 1 + (n - 1 - j) = n - j by omega]
      · by_cases h2 : j = n
        · subst h2; simp [State.dataLevel]
        · simp [h1, h2, show ¬ j < n + 1 by omega]

/-- What the gain pulses do (R107): nothing but drive the clock high and low n times. -/
theorem gainPulses_spec (n : Nat) (s : State) :
    gainPulses n s =
      { s with
        regs := if n = 0 then s.regs else { s.regs with clkDrv := false }
        trace := s.trace ++ pulseEvents n } := by
  induction n generalizing s with
  | zero => simp [gainPulses, pulseEvents]
  | succ n ih =>
    rw [gainPulses, ih]
    apply State.eq_of_fields <;> simp [pulseEvents, List.replicate_succ]

theorem pulses_ne_zero (p : Config.Params) (hp : p.Legal) (g : GainMode) : pulses p g ≠ 0 := by
  obtain ⟨-, -, -, h⟩ := hp
  cases g <;> simp only [pulses] <;> omega

/-- The sample that the next n draws of DOUT make, bit n-1 first (R106). -/
def sampleOf (n : Nat) (e : Env) : Sample := BitVec.ofFnLE fun j : Fin 32 => j < n && e.dataAhead (n - 1 - j)

theorem getElem_sampleOf (n : Nat) (e : Env) (j : Nat) (hj : j < 32) :
    (sampleOf n e)[j] = (decide (j < n) && e.dataAhead (n - 1 - j)) := by
  simp [sampleOf, ← BitVec.getLsbD_eq_getElem, BitVec.getLsbD_ofFnLE, hj]

theorem shiftBits_sample (n : Nat) (s : State) : (shiftBits n 0 s).1 = sampleOf n s.env := by
  ext j hj
  rw [(shiftBits_spec n 0 s).2 j hj, getElem_sampleOf]
  by_cases h : j < n <;> simp [h]

/-- The registers of a transfer as its step 8 finds them (R104 to R108), once PD_SCK_RB and DOUT have been sampled. -/
def State.transferRegs (s : State) : Regs :=
  { s.regs.recover with
    timestamp := s.regs.convStart
    raw := placeSample s.params (sampleOf s.params.sampleBits s.env) s.regs.raw
    convStart := s.nowMs
    clkDrv := if s.params.sampleBits = 0 ∧ pulses s.params s.regs.gain = 0 then s.regs.clkDrv else false }

/-- What steps 3 to 7 of a transfer do, once PD_SCK_RB and DOUT have been sampled (R104 to R108). -/
theorem transfer_eq (s : State) :
    s.transfer =
      { s with
        regs := s.transferRegs
        env := s.env.after 0 s.params.sampleBits 1
        trace := s.trace ++ bitEvents s.env s.params.sampleBits ++ pulseEvents (pulses s.params s.regs.gain) ++
          [.time s.nowMs] } := by
  have hraw : s.regs.recover.raw = s.regs.raw := by unfold Regs.recover; split <;> rfl
  have hgain : s.regs.recover.gain = s.regs.gain := by unfold Regs.recover; split <;> rfl
  have hconv : s.regs.recover.convStart = s.regs.convStart := by unfold Regs.recover; split <;> rfl
  have hclk : s.regs.recover.clkDrv = s.regs.clkDrv := by unfold Regs.recover; split <;> rfl
  simp only [State.transfer, State.shiftIn24, shiftBits_sample, (shiftBits_spec _ 0 _).1, gainPulses_spec]
  apply State.eq_of_fields <;> simp [State.transferRegs, State.nowMs, Env.nowAhead, Env.after]
  all_goals (by_cases h1 : s.params.sampleBits = 0 <;> by_cases h2 : pulses s.params s.regs.gain = 0 <;>
    simp [h1, h2, hraw, hgain, hconv, hclk])

/-- The settling gate by SCNT and RUV (R144). -/
theorem settle_cases (p : Config.Params) (r : Regs) :
    (r.scnt < r.ruv ∧ r.scnt + 1 < r.ruv ∧ r.settle p = ({ r with scnt := r.scnt + 1 }, .hold)) ∨
    (r.scnt < r.ruv ∧ ¬ r.scnt + 1 < r.ruv ∧
      r.settle p = ({ r with scnt := r.scnt + 1, smoothed := r.raw }, .pass)) ∨
    (¬ r.scnt < r.ruv ∧ r.settle p = (r.smoothUpdate p, .pass)) := by
  unfold Regs.settle
  by_cases h1 : r.scnt < r.ruv
  · by_cases h2 : r.scnt + 1 < r.ruv
    · exact .inl ⟨h1, h2, by simp only [h1, h2, if_true]⟩
    · exact .inr (.inl ⟨h1, h2, by simp only [h1, h2, if_true, if_false]⟩)
  · exact .inr (.inr ⟨h1, by simp [h1]⟩)

/-- The timeout compare is of the elapsed milliseconds (R102, R103). -/
theorem timedOutAt_eq (s : State) :
    s.regs.timedOutAt s.params s.nowMs = decide (s.params.timeoutMs.toNat ≤ s.elapsedMs) := by
  have := s.nowMs.isLt
  have := s.regs.convStart.isLt
  unfold Regs.timedOutAt State.elapsedMs Regs.elapsed
  rw [BitVec.toNat_sub]
  congr 2
  omega

/-- POLL always answers a next state. -/
theorem execPoll_eq (s : State) :
    execPoll s = .next ((s.beginCommand.pollPass).1.respond (doneWord (s.beginCommand.pollPass).2)) := rfl

/-- POLL's four ways (R100, R226): the clock line high; busy past the timeout; busy; a transfer. -/
theorem execPoll_cases (s : State) :
    (s.clkLevel = true ∧
      execPoll s = .next
        { s with
          regs := { s.regs with status := .poweredDown }
          rsp := some 1
          trace := [.rdClk true]
          env := s.env.after 1 0 0 }) ∨
    (s.clkLevel = false ∧ s.readyLevel = true ∧ s.regs.timedOutAt s.params s.nowMs = true ∧
      execPoll s = .next
        { s with
          regs := { s.regs with status := .timedOut }
          rsp := some 1
          trace := [.rdClk false, .rdData true, .time s.nowMs]
          env := s.env.after 1 1 1 }) ∨
    (s.clkLevel = false ∧ s.readyLevel = true ∧ s.regs.timedOutAt s.params s.nowMs = false ∧
      execPoll s = .next
        { s with
          rsp := some 0
          trace := [.rdClk false, .rdData true, .time s.nowMs]
          env := s.env.after 1 1 1 }) ∨
    (s.TransferNext ∧
      execPoll s =
        .next ((s.beginCommand.sampleClk.sampleData.transfer.settleAndReport).1.respond
          (doneWord (s.beginCommand.sampleClk.sampleData.transfer.settleAndReport).2))) := by
  have hd : s.beginCommand.sampleClk.dataLevel = s.readyLevel := by
    simp [State.dataLevel, State.readyLevel]
  have hn : s.beginCommand.sampleClk.sampleData.nowMs = s.nowMs := by simp [State.nowMs]
  have hc : s.beginCommand.clkLevel = s.clkLevel := rfl
  rw [execPoll_eq]
  unfold State.pollPass
  simp only [hc, hd]
  cases h1 : s.clkLevel
  · cases h2 : s.readyLevel
    · exact .inr (.inr (.inr ⟨⟨h1, h2⟩, by simp⟩))
    · right
      simp only [State.busy, hn, sampleData_regs, sampleClk_regs, beginCommand_regs,
        sampleData_params, sampleClk_params, beginCommand_params]
      cases h3 : s.regs.timedOutAt s.params s.nowMs
      · refine .inr (.inl ⟨by simp, by simp, by simp, ?_⟩)
        simp only [Bool.false_eq_true, if_false, if_true]
        congr 1
        apply State.eq_of_fields <;> simp [doneWord, hd, hc, h1, h2, hn]
      · refine .inl ⟨by simp, by simp, by simp, ?_⟩
        simp only [Bool.false_eq_true, if_false, if_true]
        congr 1
        apply State.eq_of_fields <;> simp [doneWord, hd, hc, h1, h2, hn]
  · left
    refine ⟨by simp, ?_⟩
    simp only [if_true]
    congr 1
    apply State.eq_of_fields <;> simp [doneWord, hc, h1]

/-- The registers of a whole POLL's transfer as its step 8 finds them (R104 to R108). -/
def beforeGate (s : State) : Regs := s.beginCommand.sampleClk.sampleData.transferRegs

theorem beforeGate_eq (s : State) :
    beforeGate s =
      { s.regs.recover with
        timestamp := s.regs.convStart
        raw := placeSample s.params (sampleOf s.params.sampleBits (s.env.after 1 1 0)) s.regs.raw
        convStart := s.nowMs
        clkDrv := if s.params.sampleBits = 0 ∧ pulses s.params s.regs.gain = 0 then s.regs.clkDrv else false } := by
  have hn : s.beginCommand.sampleClk.sampleData.nowMs = s.nowMs := by simp [State.nowMs]
  simp only [beforeGate, State.transferRegs, hn, sampleData_regs, sampleClk_regs, beginCommand_regs, sampleData_params,
    sampleClk_params, beginCommand_params, sampleData_env, sampleClk_env, beginCommand_env, Env.after_after,
    Nat.add_zero, Nat.zero_add]
  rfl

theorem beforeGate_scnt (s : State) : (beforeGate s).scnt.toNat = s.gateCount := by
  simp only [beforeGate_eq, Regs.recover, State.gateCount]
  cases s.regs.status <;> rfl

theorem beforeGate_status (s : State) : (beforeGate s).status = s.gateStatus := by
  simp only [beforeGate_eq, Regs.recover, State.gateStatus]
  cases h : s.regs.status <;> simp [h]

/-- Of the registers a gate reset leaves, the recovery of step 3 writes only STATUS and SCNT (R104). -/
theorem beforeGate_kept (s : State) :
    (beforeGate s).smoothed = s.regs.smoothed ∧ (beforeGate s).gain = s.regs.gain ∧
    (beforeGate s).alpha = s.regs.alpha ∧ (beforeGate s).ruv = s.regs.ruv ∧ (beforeGate s).tare = s.regs.tare ∧
    (beforeGate s).adjuster = s.regs.adjuster ∧ (beforeGate s).err = s.regs.err := by
  simp only [beforeGate_eq, Regs.recover]
  cases s.regs.status <;> exact ⟨rfl, rfl, rfl, rfl, rfl, rfl, rfl⟩

/-- A transfer drives at least one pulse, and leaves the clock line low (R38, R106, R107). -/
theorem beforeGate_clkDrv (s : State) (hp : s.params.Legal) : (beforeGate s).clkDrv = false := by
  rw [beforeGate_eq]
  exact if_neg fun h => pulses_ne_zero s.params hp _ h.2

/-- The registers after the settling gate and step 9 (R111, R144). -/
def afterGate (p : Config.Params) (r : Regs) : Regs :=
  match r.settle p with
  | (r', .hold) => r'
  | (r', .pass) => { r' with status := .valid }

/-- POLL's done result on a transfer (R111, R144). -/
def gatePasses (p : Config.Params) (r : Regs) : Bool :=
  match r.settle p with
  | (_, .hold) => false
  | (_, .pass) => true

/-- What a transfer does, whole (R100): registers, draws, line trace and result. -/
theorem execPoll_transfer (s : State) (h : s.TransferNext) :
    execPoll s = .next
      { s with
        regs := afterGate s.params (beforeGate s)
        rsp := some (doneWord (gatePasses s.params (beforeGate s)))
        env := s.env.after 1 (s.params.sampleBits + 1) 1
        trace :=
          [.rdClk false, .rdData false] ++ bitEvents (s.env.after 1 1 0) s.params.sampleBits ++
            pulseEvents (pulses s.params s.regs.gain) ++ [.time s.nowMs] } := by
  obtain ⟨hc, -⟩ | ⟨-, hc, -⟩ | ⟨-, hc, -⟩ | ⟨-, e⟩ := execPoll_cases s
  · rw [h.1] at hc; cases hc
  · rw [h.2] at hc; cases hc
  · rw [h.2] at hc; cases hc
  have hn : s.beginCommand.sampleClk.sampleData.nowMs = s.nowMs := by simp [State.nowMs]
  have hd : s.beginCommand.sampleClk.dataLevel = false := by
    have := h.2; simpa [State.dataLevel, State.readyLevel] using this
  have hc : s.beginCommand.clkLevel = false := h.1
  have hr : s.beginCommand.sampleClk.sampleData.transfer.regs = beforeGate s := by
    rw [transfer_eq]; rfl
  rw [e]
  unfold State.settleAndReport afterGate gatePasses
  rw [hr]
  rw [show s.beginCommand.sampleClk.sampleData.transfer.params = s.params by rw [transfer_eq]; rfl]
  rcases (beforeGate s).settle s.params with ⟨r, g⟩
  rw [transfer_eq]
  cases g <;> (simp only []; congr 1; apply State.eq_of_fields <;> simp [hd, hc, hn, Nat.add_comm])

/-- The three ways of the settling gate, in numbers, with everything but SCNT, SMOOTHED and STATUS kept (R144). -/
theorem afterGate_cases (p : Config.Params) (r : Regs) :
    (r.scnt.toNat + 1 < r.ruv.toNat ∧ gatePasses p r = false ∧
      ∃ c : Byte, c.toNat = r.scnt.toNat + 1 ∧ afterGate p r = { r with scnt := c }) ∨
    (r.scnt.toNat + 1 = r.ruv.toNat ∧ gatePasses p r = true ∧
      ∃ c : Byte, c.toNat = r.scnt.toNat + 1 ∧
        afterGate p r = { r with scnt := c, smoothed := r.raw, status := .valid }) ∨
    (r.ruv.toNat ≤ r.scnt.toNat ∧ gatePasses p r = true ∧
      afterGate p r = { r.smoothUpdate p with status := .valid }) := by
  have hlt : r.ruv.toNat < 256 := r.ruv.isLt
  have hs : r.scnt < r.ruv → (r.scnt + 1).toNat = r.scnt.toNat + 1 := by
    intro h
    rw [BitVec.lt_def] at h
    simp [BitVec.toNat_add]; omega
  unfold afterGate gatePasses
  rcases settle_cases p r with ⟨h1, h2, e⟩ | ⟨h1, h2, e⟩ | ⟨h1, e⟩
  · refine .inl ⟨?_, by rw [e], r.scnt + 1, hs h1, by rw [e]⟩
    rw [BitVec.lt_def, hs h1] at h2; exact h2
  · refine .inr (.inl ⟨?_, by rw [e], r.scnt + 1, hs h1, by rw [e]⟩)
    rw [BitVec.lt_def, hs h1] at h2; rw [BitVec.lt_def] at h1; omega
  · refine .inr (.inr ⟨?_, by rw [e], by rw [e]⟩)
    rw [BitVec.lt_def] at h1; omega

/-- The settling gate and step 9 write SCNT, SMOOTHED and STATUS at most (R111, R144). -/
theorem afterGate_agrees (p : Config.Params) (r : Regs) :
    AgreeExcept [.scnt, .smoothed, .status] r (afterGate p r) := by
  rcases afterGate_cases p r with ⟨-, -, c, -, e⟩ | ⟨-, -, c, -, e⟩ | ⟨-, -, e⟩ <;>
    simp [e, AgreeExcept, Regs.smoothUpdate]

/-- A POLL that is no transfer does not count (R148). -/
theorem transfersSince_of_not_transfer (k : Nat) (s : State) (h : ¬ (afterPolls k s).TransferNext) :
    transfersSince (k + 1) s = transfersSince k s := if_neg h

/-- A transfer counts one; one that recovers from a timeout is the first (R104, R147). -/
theorem transfersSince_of_transfer (k : Nat) (s : State) (h : (afterPolls k s).TransferNext) :
    transfersSince (k + 1) s =
      match (afterPolls k s).regs.status with
      | .timedOut => 1
      | .init | .valid | .poweredDown => transfersSince k s + 1 := if_pos h

end Sys2Proof.Machine
end

