-- ==== Sys2Proof/Laws/Filter.lean ====
section
/-! SUPPORT. The smoothing update (R141, R142): its exact result lies between the old SMOOTHED and RAW, so storing it never
wraps. -/

namespace Sys2Proof.Machine

/-- A truncated quotient by c times a weight of at most c moves from 0 toward d and never past it (R142). -/
theorem weighted_quotient_between (c : Nat) (d : Int) (a : Nat) (ha : a ≤ c) :
    (0 ≤ d → 0 ≤ Int.tdiv d c * a ∧ Int.tdiv d c * a ≤ d) ∧
    (d ≤ 0 → d ≤ Int.tdiv d c * a ∧ Int.tdiv d c * a ≤ 0) := by
  have key : ∀ e : Int, 0 ≤ e → 0 ≤ Int.tdiv e c * a ∧ Int.tdiv e c * a ≤ e := by
    intro e he
    rw [Int.tdiv_eq_ediv_of_nonneg he]
    have h0 : 0 ≤ e / (c : Int) := Int.ediv_nonneg he (by omega)
    refine ⟨by positivity, ?_⟩
    calc e / c * a ≤ e / c * c := mul_le_mul_of_nonneg_left (by exact_mod_cast ha) h0
      _ ≤ e := by
        rcases Nat.eq_zero_or_pos c with rfl | hc
        · simpa using he
        · exact Int.ediv_mul_le e (by omega)
  refine ⟨key d, fun hd => ?_⟩
  have := key (-d) (by omega)
  rw [Int.neg_tdiv] at this
  constructor <;> linarith [this.1, this.2, neg_mul (Int.tdiv d c) (a : Int)]

/-- The exact new SMOOTHED lies between the old one and RAW (R142). -/
theorem smoothedExact_between (p : Config.Params) (hp : p.Legal) (raw smoothed : Word) (alpha : Byte) :
    min smoothed.toInt raw.toInt ≤ smoothedExact p raw smoothed alpha ∧
    smoothedExact p raw smoothed alpha ≤ max smoothed.toInt raw.toInt := by
  have ha : alpha.toNat ≤ p.scale := by have := alpha.isLt; have := hp.2.1; omega
  have h := weighted_quotient_between p.scale (raw.toInt - smoothed.toInt) alpha.toNat ha
  simp only [smoothedExact, truncDiv]
  rcases le_total smoothed.toInt raw.toInt with hle | hle
  · have := h.1 (by omega)
    rw [min_eq_left hle, max_eq_right hle]
    omega
  · have := h.2 (by omega)
    rw [min_eq_right hle, max_eq_left hle]
    omega

/-- Storing the new SMOOTHED never wraps (R142). -/
theorem smoothUpdate_toInt (p : Config.Params) (hp : p.Legal) (r : Regs) :
    (r.smoothUpdate p).smoothed.toInt = smoothedExact p r.raw r.smoothed r.alpha := by
  have h := smoothedExact_between p hp r.raw r.smoothed r.alpha
  have hr := BitVec.le_toInt r.raw
  have hr' := BitVec.toInt_lt (x := r.raw)
  have hs := BitVec.le_toInt r.smoothed
  have hs' := BitVec.toInt_lt (x := r.smoothed)
  exact wrap32_toInt_of_range _ (by omega) (by omega)

end Sys2Proof.Machine
end

