-- ==== Sys2Proof/Laws/PerInstr.lean ====
section
/-! SUPPORT. A fact about the encoding of every command, one lemma per constructor. -/

namespace Sys2Proof.Laws.EncodeShape

/-- The command word of a command has the format of R80: its opcode, which R85 assigns, in bits 4:0; its S in bit 5, set
only where the command takes S; and 0 in bits 31:6. -/
def Statement (i : Instr) : Prop :=
  opField (encode i).1 = i.op ∧ opAssigned i.op = true ∧ rsvField (encode i).1 = 0 ∧
    selField (encode i).1 = bitOfReading i.sel ∧ (selField (encode i).1 = true → opTakesSel i.op = true)

theorem poll : Statement .poll := by
  simp only [Statement, encode, Instr.op, Instr.sel]; decide

theorem getStatus : Statement .getStatus := by
  simp only [Statement, encode, Instr.op, Instr.sel]; decide

theorem setGain (code : BitVec 2) : Statement (.setGain code) := by
  simp only [Statement, encode, Instr.op, Instr.sel]; decide

theorem getGain : Statement .getGain := by
  simp only [Statement, encode, Instr.op, Instr.sel]; decide

theorem setAlpha (alpha : Byte) : Statement (.setAlpha alpha) := by
  simp only [Statement, encode, Instr.op, Instr.sel]; decide

theorem getAlpha : Statement .getAlpha := by
  simp only [Statement, encode, Instr.op, Instr.sel]; decide

theorem getTimestamp : Statement .getTimestamp := by
  simp only [Statement, encode, Instr.op, Instr.sel]; decide

theorem getRaw (sel : Reading) : Statement (.getRaw sel) := by
  cases sel <;> (simp only [Statement, encode, Instr.op, Instr.sel]; decide)

theorem tare (sel : Reading) : Statement (.tare sel) := by
  cases sel <;> (simp only [Statement, encode, Instr.op, Instr.sel]; decide)

theorem setTare (value : Word) : Statement (.setTare value) := by
  simp only [Statement, encode, Instr.op, Instr.sel]; decide

theorem getTare : Statement .getTare := by
  simp only [Statement, encode, Instr.op, Instr.sel]; decide

theorem getRawMinusTare (sel : Reading) : Statement (.getRawMinusTare sel) := by
  cases sel <;> (simp only [Statement, encode, Instr.op, Instr.sel]; decide)

theorem adjustTo (sel : Reading) (target : Word) : Statement (.adjustTo sel target) := by
  cases sel <;> (simp only [Statement, encode, Instr.op, Instr.sel]; decide)

theorem getAdjuster : Statement .getAdjuster := by
  simp only [Statement, encode, Instr.op, Instr.sel]; decide

theorem setAdjuster (value : Word) : Statement (.setAdjuster value) := by
  simp only [Statement, encode, Instr.op, Instr.sel]; decide

theorem getAdjusted (sel : Reading) : Statement (.getAdjusted sel) := by
  cases sel <;> (simp only [Statement, encode, Instr.op, Instr.sel]; decide)

theorem powerDown : Statement .powerDown := by
  simp only [Statement, encode, Instr.op, Instr.sel]; decide

theorem powerUp : Statement .powerUp := by
  simp only [Statement, encode, Instr.op, Instr.sel]; decide

theorem setReadsUntilValid (threshold : Byte) : Statement (.setReadsUntilValid threshold) := by
  simp only [Statement, encode, Instr.op, Instr.sel]; decide

theorem getReadsUntilValid : Statement .getReadsUntilValid := by
  simp only [Statement, encode, Instr.op, Instr.sel]; decide

theorem getErr : Statement .getErr := by
  simp only [Statement, encode, Instr.op, Instr.sel]; decide

end Sys2Proof.Laws.EncodeShape
end

