-- ==== Sys2Proof/Laws/Sequencer.lean ====
section
/-! SUPPORT. Runs of the POLL sequencer's loops (R109): the data pulses are ShiftIn24, the gain pulses are GainPulses. -/

namespace Sys2Proof.Machine

theorem microRun_add (a b : Nat) (q : Seq) : microRun (a + b) q = microRun b (microRun a q) := by
  induction a generalizing q with
  | zero => simp [microRun]
  | succ a ih => rw [Nat.succ_add]; simp [microRun, ih]

/-- The least cycles of a run are those of its parts (R109). -/
theorem minCyclesOf_add (tHigh tLow a b : Nat) (q : Seq) :
    minCyclesOf tHigh tLow (a + b) q = minCyclesOf tHigh tLow a q + minCyclesOf tHigh tLow b (microRun a q) := by
  induction a generalizing q with
  | zero => simp [minCyclesOf, microRun]
  | succ a ih => rw [Nat.succ_add]; simp [minCyclesOf, microRun, ih, Nat.add_assoc]

/-- The sequencer stays where a POLL has ended. -/
theorem microRun_idle (n : Nat) (q : Seq) (h : q.micro = .idle) : microRun n q = q := by
  induction n with
  | zero => rfl
  | succ n ih => simp [microRun, microStep, h, ih]

/-- The bit micro-states from bit n down to 0 shift in n + 1 bits and write RAW (R106). -/
theorem microRun_bits (n : Nat) (q : Seq) (hm : q.micro = .bitHi) (hb : q.bit = n) :
    microRun (3 * (n + 1)) q =
      let shifted := shiftBits (n + 1) q.sample q.m
      { q with
        micro := .pulseHi, bit := 0, pulse := 1, sample := shifted.1
        m := shifted.2.writeSample shifted.1 } := by
  induction n generalizing q with
  | zero =>
    rcases q with ⟨mi, b, p, sa, d, m⟩
    simp at hm hb; subst hm; subst hb
    simp [microRun, microStep, shiftBits]
  | succ n ih =>
    rcases q with ⟨mi, b, p, sa, d, m⟩
    simp at hm hb; subst hm; subst hb
    rw [show 3 * (n + 1 + 1) = 3 * (n + 1) + 1 + 1 + 1 by omega]
    simp only [microRun, microStep]
    rw [ih _ rfl rfl]
    rfl

/-- The pulse micro-states from pulse k up to PULSES(GAIN) drive the pulses that are left (R107). -/
theorem microRun_pulses (j : Nat) (q : Seq) (hm : q.micro = .pulseHi)
    (hp : q.pulse + j = pulses q.m.params q.m.regs.gain) :
    microRun (2 * (j + 1)) q =
      { q with micro := .start, pulse := pulses q.m.params q.m.regs.gain, m := gainPulses (j + 1) q.m } := by
  induction j generalizing q with
  | zero =>
    rcases q with ⟨mi, b, p, sa, d, m⟩
    simp at hm hp; subst hm; subst hp
    simp [microRun, microStep, gainPulses]
  | succ n ih =>
    rcases q with ⟨mi, b, p, sa, d, m⟩
    simp at hm hp; subst hm
    rw [show 2 * (n + 1 + 1) = 2 * (n + 1) + 1 + 1 by omega]
    simp only [microRun, microStep, drive_regs, drive_params, show p < pulses m.params m.regs.gain by omega, if_true]
    rw [ih _ rfl (by simp; omega)]
    rfl

end Sys2Proof.Machine
end

