-- ==== Sys2Proof/Laws/Step.lean ====
section
/-! SUPPORT. What exec and step can do, said once. -/

namespace Sys2Proof.Machine

/-- Every command answers a next state. -/
theorem exec_next (i : Instr) (s : State) : ∃ t, exec i s = .next t := by
  cases i
  case setGain code =>
    simp only [exec, execSetGain]
    split <;> exact ⟨_, rfl⟩
  case getAdjusted sel =>
    simp only [exec, execGetAdjusted]
    split <;> exact ⟨_, rfl⟩
  all_goals exact ⟨_, rfl⟩

/-- Every accepted command word answers a next state, the rejected ones too (R90, R224). -/
theorem runCommand_next (word arg : Word) (s : State) : ∃ t, runCommand word arg s = .next t := by
  unfold runCommand
  split
  · exact exec_next _ s
  · exact ⟨_, rfl⟩

/-- What one step can be: an idle wait, a reset, an accepted command, a result taken, or a result held (R20, R260). -/
theorem step_cases (s : State) :
    (s.hostIn = [] ∧ step s = .next s) ∨
    (∃ h rest, s.hostIn = h :: rest ∧
      ((h.rst = .low ∧ accepts h s ∧ step s = runCommand h.cmdWord h.cmdArg { s with hostIn := rest }) ∨
       (h.rst = .low ∧ ¬ accepts h s ∧ h.rspReady = true ∧ step s = .next { s with hostIn := rest, rsp := none }) ∨
       (h.rst = .low ∧ ¬ accepts h s ∧ h.rspReady = false ∧ step s = .next { s with hostIn := rest }) ∨
       (∃ u : State, h.rst ≠ .low ∧ step s = .next u.applyReset ∧
          (u = { s with hostIn := rest } ∨
            ∃ k, h.rst = .during k ∧ u = abandonedAfter k h.cmdWord h.cmdArg { s with hostIn := rest })))) := by
  rcases s with ⟨regs, rsp, trace, env, hostIn, params⟩
  cases hostIn with
  | nil => exact .inl ⟨rfl, rfl⟩
  | cons h rest =>
    refine .inr ⟨h, rest, rfl, ?_⟩
    rcases h with ⟨rst, v, w, a, rdy⟩
    simp only [step, State.nextHostIn, List.tail_cons, hostStep, portStep, accepts, State.cmdReady]
    cases rst with
    | low => cases v <;> cases rsp <;> cases rdy <;> simp
    | high => simp
    | during k =>
      cases v
      · exact .inr (.inr (.inr ⟨_, by simp, rfl, .inl rfl⟩))
      · cases rsp
        · exact .inr (.inr (.inr ⟨_, by simp, rfl, .inr ⟨k, rfl, rfl⟩⟩))
        · exact .inr (.inr (.inr ⟨_, by simp, rfl, .inl rfl⟩))

end Sys2Proof.Machine
end

