-- ==== Sys2Proof/Tests/Slice0.lean ====
section
/-! SUPPORT. The model's own tests. Expected values come from spec/95_test_vectors.md (V, P, G, K, Q, A and the decode
vectors) and from the encoding table R85; the witnesses show states that meet the hypotheses of the obligations. -/

namespace Sys2Proof.Tests

open Sys2Proof Sys2Proof.Machine

/-! ### WellFormed -/

theorem test_setGain_reserved_code_is_ill_formed : (Instr.setGain 0b11).wellFormed = false := by decide
theorem test_setGain_legal_codes_are_well_formed :
    (Instr.setGain 0).wellFormed = true ∧ (Instr.setGain 1).wellFormed = true ∧ (Instr.setGain 2).wellFormed = true := by
  decide

/-! ### Decoding: one word per constructor, written out from R80 and R85 as RSV, S, OP -/

theorem test_decode_poll : decode (0b00000000000000000000000000#26 ++ 0b0#1 ++ 0b00001#5) 7 = .ok .poll := by decide
theorem test_decode_getStatus : decode (0#26 ++ 0b0#1 ++ 0b00010#5) 0xFFFFFFFF = .ok .getStatus := by decide
theorem test_decode_setGain : decode (0#26 ++ 0b0#1 ++ 0b00011#5) 0x6 = .ok (.setGain 0b10) := by decide
theorem test_decode_getGain : decode (0#26 ++ 0b0#1 ++ 0b00100#5) 0 = .ok .getGain := by decide
theorem test_decode_setAlpha : decode (0#26 ++ 0b0#1 ++ 0b00101#5) 0x1C8 = .ok (.setAlpha 0xC8) := by decide
theorem test_decode_getAlpha : decode (0#26 ++ 0b0#1 ++ 0b00110#5) 0 = .ok .getAlpha := by decide
theorem test_decode_getTimestamp : decode (0#26 ++ 0b0#1 ++ 0b00111#5) 0 = .ok .getTimestamp := by decide
theorem test_decode_getRaw : decode (0#26 ++ 0b1#1 ++ 0b01000#5) 0 = .ok (.getRaw .smoothed) := by decide
theorem test_decode_tare : decode (0#26 ++ 0b1#1 ++ 0b01001#5) 0 = .ok (.tare .smoothed) := by decide
theorem test_decode_setTare : decode (0#26 ++ 0b0#1 ++ 0b01010#5) 0xFFFFF600 = .ok (.setTare 0xFFFFF600) := by decide
theorem test_decode_getTare : decode (0#26 ++ 0b0#1 ++ 0b01011#5) 0 = .ok .getTare := by decide
theorem test_decode_getRawMinusTare : decode (0#26 ++ 0b0#1 ++ 0b01100#5) 0 = .ok (.getRawMinusTare .raw) := by decide
theorem test_decode_adjustTo : decode (0#26 ++ 0b1#1 ++ 0b01101#5) 100 = .ok (.adjustTo .smoothed 100) := by decide
theorem test_decode_getAdjuster : decode (0#26 ++ 0b0#1 ++ 0b01110#5) 0 = .ok .getAdjuster := by decide
theorem test_decode_setAdjuster : decode (0#26 ++ 0b0#1 ++ 0b01111#5) 0xFFFFFFFF = .ok (.setAdjuster 0xFFFFFFFF) := by
  decide
theorem test_decode_getAdjusted : decode (0#26 ++ 0b1#1 ++ 0b10000#5) 0 = .ok (.getAdjusted .smoothed) := by decide
theorem test_decode_powerDown : decode (0#26 ++ 0b0#1 ++ 0b10001#5) 0 = .ok .powerDown := by decide
theorem test_decode_powerUp : decode (0#26 ++ 0b0#1 ++ 0b10010#5) 0 = .ok .powerUp := by decide
theorem test_decode_setReadsUntilValid : decode (0#26 ++ 0b0#1 ++ 0b10011#5) 0x105 = .ok (.setReadsUntilValid 5) := by
  decide
theorem test_decode_getReadsUntilValid : decode (0#26 ++ 0b0#1 ++ 0b10100#5) 0 = .ok .getReadsUntilValid := by decide
theorem test_decode_getErr : decode (0#26 ++ 0b0#1 ++ 0b10101#5) 0 = .ok .getErr := by decide

theorem test_no_two_opcode_rows_overlap :
    opcodeTable.Pairwise fun a b => (a.matchWord ^^^ b.matchWord) &&& a.maskWord &&& b.maskWord ≠ 0 := by decide

/-! ### Small states -/

/-- A reset state with other registers. -/
def withR (r : Regs) : State := { State.reset with regs := r }

/-- The registers after reset. -/
def r0 : Regs := State.reset.regs

/-- The levels of a sample on DOUT, MSB first. -/
def bitsOf (x : Sample) : List Bool := (List.range 24).map fun j => x.getLsbD (23 - j)

/-- A state whose next POLL is a transfer of the sample x that ends at time t. -/
def ready (r : Regs) (x : Sample) (t : Word) : State :=
  { withR r with env := ⟨⟨[false], 0⟩, ⟨false :: bitsOf x, 0⟩, ⟨[t], 0⟩⟩ }

/-- A state whose next POLL finds DOUT high at time t. -/
def busyAt (r : Regs) (t : Word) : State := { withR r with env := ⟨⟨[false], 0⟩, ⟨[true], 0⟩, ⟨[t], 0⟩⟩ }

/-- A state whose next sample of PD_SCK_RB reads 1. -/
def clockHigh (r : Regs) : State := { withR r with env := ⟨⟨[true], 0⟩, ⟨[], 0⟩, ⟨[], 0⟩⟩ }

/-- What a test reads of an outcome. -/
def seen {α : Type} (o : Host.Outcome State Fault Refusal) (f : State → α) : Option α :=
  match o with
  | .next t => some (f t)
  | .fault _ | .refused _ => none

/-! ### POLL: P-6 and V2's second step of 95_test_vectors.md -/

theorem test_poll_transfer_of_the_most_negative_sample :
    seen (exec .poll (ready r0 0x800000 7)) (fun t => (t.regs.raw, t.regs.timestamp, t.regs.convStart, t.regs.scnt, t.rsp)) =
      some (0x80000000, 0, 7, 1, some 0) := by decide

theorem test_placeSample_is_the_pattern :  -- {sample[23:0], RAW[7:0]} of R106
    placeSample {} 0x800001 0x123456AB = 0x800001AB ∧ placeSample {} 0x7FFFFE 0xFFFFFF00 = 0x7FFFFE00 := by decide

theorem test_poll_recovers_and_seeds :  -- P-16
    seen (exec .poll (ready { r0 with status := .timedOut, ruv := 1, scnt := 1 } 0x000200 9))
      (fun t => (t.regs.scnt, t.regs.smoothed, t.regs.status, t.rsp)) =
      some (1, 0x00020000, .valid, some 1) := by decide

theorem test_smoothing_rounds_toward_zero :  -- 2.3, d = -300
    (Regs.smoothUpdate { r0 with raw := BitVec.ofInt 32 (-300), alpha := 255 } {}).smoothed = BitVec.ofInt 32 (-255) := by
  decide

theorem test_smoothing_difference_is_exact :  -- 2.3, the row where a 32-bit datapath would wrap
    (Regs.smoothUpdate { r0 with raw := 0x7FFFFF00, smoothed := 0x80000000, alpha := 255 } {}).smoothed = 0x7EFFFF01 := by
  decide

theorem test_poll_times_out_across_the_wrap :  -- P-4 and P-5
    seen (exec .poll (busyAt { r0 with convStart := 0xFFFFFF00 } 0xF3)) (fun t => (t.regs.status, t.rsp)) =
      some (.init, some 0) ∧
    seen (exec .poll (busyAt { r0 with convStart := 0xFFFFFF00 } 0xF4)) (fun t => (t.regs.status, t.rsp)) =
      some (.timedOut, some 1) := by decide

/-! ### The other commands, one vector each -/

theorem test_getStatus_valid_is_1 :
    seen (exec .getStatus (withR { r0 with status := .valid })) State.rsp = some (some 1) := by decide
theorem test_setGain_same_gain_restarts :  -- Q-8
    seen (exec (.setGain 1) (withR { r0 with gain := .gain64, status := .valid, scnt := 3 }))
      (fun t => (t.regs.gain, t.regs.status, t.regs.scnt)) = some (.gain64, .init, 0) := by decide
theorem test_setGain_code_3_raises :  -- Q-10
    seen (exec (.setGain 3) (withR { r0 with gain := .gain64, status := .valid }))
      (fun t => (t.regs.gain, t.regs.status, t.regs.err, t.rsp)) = some (.gain64, .valid, 4, some 0) := by decide
theorem test_getGain_after_reset_is_2 : seen (exec .getGain (withR r0)) State.rsp = some (some 2) := by decide
theorem test_setAlpha_256_stores_0 :  -- G-12
    seen (runCommand 5 0x100 (withR { r0 with alpha := 9 })) (fun t => t.regs.alpha) = some 0 := by decide
theorem test_getAlpha : seen (exec .getAlpha (withR { r0 with alpha := 0xC8 })) State.rsp = some (some 0xC8) := by decide
theorem test_getTimestamp :
    seen (exec .getTimestamp (withR { r0 with timestamp := 1000 })) State.rsp = some (some 1000) := by decide
theorem test_getRaw_smoothed :
    seen (exec (.getRaw .smoothed) (withR { r0 with raw := 1, smoothed := 0x000AC800 })) State.rsp =
      some (some 0x000AC800) := by decide
theorem test_tare_smoothed :  -- K-2
    seen (exec (.tare .smoothed) (withR { r0 with smoothed := 0x00050000 })) (fun t => t.regs.tare) =
      some 0x00050000 := by decide
theorem test_setTare :  -- K-3
    seen (exec (.setTare 0xFFFFF600) (withR r0)) (fun t => t.regs.tare.toInt) = some (-2560) := by decide
theorem test_getTare : seen (exec .getTare (withR { r0 with tare := 0xFFFFFF00 })) State.rsp = some (some 0xFFFFFF00) := by
  decide
theorem test_getRawMinusTare_wraps :  -- K-5 and K-6
    seen (exec (.getRawMinusTare .raw) (withR { r0 with raw := 0x7FFFFF00, tare := 0xFFFFFF00 })) State.rsp =
      some (some 0x80000000) ∧
    seen (exec (.getRawMinusTare .raw) (withR { r0 with raw := 0x80000000, tare := 1 })) State.rsp =
      some (some 0x7FFFFFFF) := by decide
theorem test_adjustTo_coerces_zero :  -- K-9
    seen (exec (.adjustTo .raw 0) (withR { r0 with raw := 655360 })) (fun t => (t.regs.adjuster, t.regs.err)) =
      some (655360, 0) := by decide
theorem test_adjustTo_wraps_its_quotient :  -- K-12
    seen (exec (.adjustTo .raw 0xFFFFFFFF) (withR { r0 with raw := 0x80000000 })) (fun t => t.regs.adjuster) =
      some 0x80000000 := by decide
theorem test_getAdjuster_after_reset_is_1 : seen (exec .getAdjuster (withR r0)) State.rsp = some (some 1) := by decide
theorem test_setAdjuster_stores_zero :  -- K-22
    seen (exec (.setAdjuster 0) (withR r0)) (fun t => (t.regs.adjuster, t.regs.err)) = some (0, 0) := by decide
theorem test_getAdjusted_truncates :  -- K-14 and K-15
    seen (exec (.getAdjusted .raw) (withR { r0 with raw := 0xFFF60000, adjuster := 6553 })) State.rsp =
      some (some 0xFFFFFF9C) ∧
    seen (exec (.getAdjusted .raw) (withR { r0 with tare := 0xFFFFFFF9, adjuster := 0xFFFFFFFE })) State.rsp =
      some (some 0xFFFFFFFD) := by decide
theorem test_getAdjusted_by_zero :  -- K-20
    seen (exec (.getAdjusted .raw) (withR { r0 with adjuster := 0 })) (fun t => (t.rsp, t.regs.err)) = some (some 0, 8) := by
  decide
theorem test_powerDown_keeps_status :  -- Q-1
    seen (exec .powerDown (withR { r0 with status := .valid })) (fun t => (t.regs.clkDrv, t.regs.status, t.trace)) =
      some (true, .valid, [.drive true]) := by decide
theorem test_powerUp :  -- Q-4
    seen (exec .powerUp (busyAt { r0 with clkDrv := true, status := .poweredDown, scnt := 2 } 1000))
      (fun t => (t.regs.clkDrv, t.regs.status, t.regs.scnt, t.regs.convStart, t.trace)) =
      some (false, .init, 0, 1000, [.drive false, .time 1000]) := by decide
theorem test_setReadsUntilValid_clamps :  -- G-7
    seen (exec (.setReadsUntilValid 1) (withR { r0 with scnt := 3 })) (fun t => (t.regs.ruv, t.regs.scnt)) =
      some (1, 1) := by decide
theorem test_getReadsUntilValid_after_reset_is_3 :
    seen (exec .getReadsUntilValid (withR r0)) State.rsp = some (some 3) := by decide
theorem test_getErr : seen (exec .getErr (withR { r0 with err := 8 })) State.rsp = some (some 8) := by decide

theorem test_opcode_check_comes_before_reserved_bits :  -- 2.1, 0x00000056 and 0x00000023 / 3
    seen (runCommand 0x56 0 (withR r0)) (fun t => t.regs.err) = some 1 ∧
    seen (runCommand 0x23 3 (withR r0)) (fun t => t.regs.err) = some 2 := by decide

/-- The word withFetchWord places is the one the next step runs. -/
theorem test_withFetchWord_runs_getGain :
    seen (step (State.reset.withFetchWord 32 4)) State.rsp = some (some 2) := by decide

/-- POLL right after reset answers a next state whatever the environment's draws are. -/
theorem test_withFetchWord_runs_poll :
    (seen (step (State.reset.withFetchWord 32 1)) State.params).isSome = true := by decide

/-- The assembler's reading of a line with a label, `.S` and a comment (R91). -/
theorem test_assemble_line : assembleLine "loop:\tGET_RAW.S ; smoothed" = .ok (0x28, 0) := by decide

/-- A label is one word (log 18). -/
theorem test_assemble_label_form :
    assembleLine ": POLL" = .error .malformed ∧ assembleLine "a b: POLL" = .error .malformed := by decide

/-- The words of a run of SET_GAIN code 3 (R93's last row). -/
theorem test_words_3_3_raise_illegalGain :
    seen (runCommand 3 3 (withR { r0 with err := 1 })) (fun t => (t.regs.err, t.rsp)) = some (5, some 0) := by decide

/-! ### Witnesses: states and operands that meet the hypotheses of each obligation that has some -/

/-- A state to which the host presents the levels h on the next step. -/
def presented (h : HostIn) (rsp : Option Word) : State := { State.reset with hostIn := [h], rsp := rsp }

theorem witness_RejectedWords :
    (0x00000000#32).toNat % 32 = 0 ∧ 0x16 ≤ (0x00000016#32).toNat % 32 ∧ 0x16 ≤ (0x0000001F#32).toNat % 32 ∧
    (1 ≤ (0x00000041#32).toNat % 32 ∧ (0x00000041#32).toNat % 32 ≤ 0x15 ∧ 64 ≤ (0x00000041#32).toNat) ∧
    (1 ≤ (0x00000035#32).toNat % 32 ∧ (0x00000035#32).toNat % 32 ≤ 0x15 ∧ (0x00000035#32).toNat / 32 % 2 = 1 ∧
      (0x00000035#32).toNat % 32 ∉ ([0x08, 0x09, 0x0C, 0x0D, 0x10] : List Nat)) := by decide

theorem witness_CommandsAreNamedByMatchAndMask : (⟨"GET_RAW", 0x00000008, 0xFFFFFFDF⟩ : OpcodeRow) ∈ opcodeTable := by
  decide

theorem witness_StepRunsTheAcceptedCommand :
    ((presented (offer 4 0) none).hostIn = [offer 4 0] ∧ (offer 4 0).rst = .low ∧ (offer 4 0).cmdValid = true ∧
      (presented (offer 4 0) none).cmdReady = true ∧ decode (offer 4 0).cmdWord (offer 4 0).cmdArg = .ok .getGain) ∧
    decodeTableWord 32 0x28 = some (.getRaw .smoothed) := by decide

theorem witness_ResultIsHeldUntilTheHostTakesIt :
    ((presented (offer 4 0) (some 7)).hostIn = [offer 4 0] ∧ (offer 4 0).rst = .low ∧
      (presented (offer 4 0) (some 7)).rsp = some 7) ∧
    ((presented ⟨.low, false, 0, 0, true⟩ none).rsp = none ∧ (HostIn.mk .low false 0 0 true).cmdValid = false) ∧
    State.reset.hostIn = [] := by decide

theorem witness_ResetGivesEveryRegisterItsResetValue :
    (presented ⟨.high, true, 1, 0, false⟩ none).hostIn = [⟨.high, true, 1, 0, false⟩] := by decide

/-- The reset lands inside a POLL's transfer, inside POWER_UP, and where no command is accepted. -/
theorem witness_ResetInsideACommandLeavesOnlyResetValues :
    (presented ⟨.during 40, true, 1, 0, false⟩ none).hostIn = [⟨.during 40, true, 1, 0, false⟩] ∧
    accepts ⟨.during 1, true, 0x12, 0, false⟩ State.reset = true ∧
    accepts ⟨.during 0, false, 0, 0, false⟩ State.reset = false := by decide

/-- The source's literals, and others a claim may assume. -/
theorem witness_InvariantHoldsAfterReset :
    Config.Params.Legal {} ∧
    Config.Params.Legal { sampleBits := 16, scale := 0x10000, timeoutMs := 800, pulses64 := 7, rawReset := 5 } := by
  decide

theorem witness_EveryStepKeepsTheSettlingBoundAndTheRawLowByte :
    (presented (offer 0x13 2) none).Inv ∧ ∃ t, step (presented (offer 0x13 2) none) = .next t := ⟨by decide, _, rfl⟩

theorem witness_StepSetsAtMostOneErrorBitAndClearsNone :
    (presented (offer 0 0) none).hostIn = [offer 0 0] ∧ (offer 0 0).rst = .low ∧
      ∃ t, step (presented (offer 0 0) none) = .next t := ⟨rfl, rfl, _, rfl⟩

theorem witness_StepKeepsTheInstanceParameters : ∃ t, step (presented ⟨.high, false, 0, 0, false⟩ none) = .next t :=
  ⟨_, rfl⟩

theorem witness_CommandsWriteOnlyTheirRegisters :
    leavesLinesAlone (.setAlpha 3) = true ∧ ∃ t, exec (.setAlpha 3) State.reset = .next t := ⟨rfl, _, rfl⟩

theorem witness_ClockLineFollowsPowerCommandsAndTransfers :
    (∃ t, exec .powerDown State.reset = .next t) ∧ (∃ t, exec .powerUp State.reset = .next t) ∧
    ((ready r0 0x000A00 100).TransferNext ∧ (ready r0 0x000A00 100).params.Legal ∧
      ∃ t, exec .poll (ready r0 0x000A00 100) = .next t) ∧
    (¬ (clockHigh r0).TransferNext ∧ ∃ t, exec .poll (clockHigh r0) = .next t) :=
  ⟨⟨_, rfl⟩, ⟨_, rfl⟩, ⟨by decide, by decide, _, rfl⟩, ⟨by decide, _, rfl⟩⟩

theorem witness_SettlingCounterFallsOnlyAtGateResets :
    (∃ t, exec .poll (busyAt { r0 with status := .timedOut, scnt := 3 } 600) = .next t) ∧
    ¬ (busyAt { r0 with status := .timedOut, scnt := 3 } 600).TransferNext ∧
    (∃ t, exec (.setGain 0b11) (withR { r0 with scnt := 2 }) = .next t) := ⟨⟨_, rfl⟩, by decide, _, rfl⟩

theorem witness_HiddenRegistersReachOnlyPoll :
    (∃ t, exec .powerUp (withR { r0 with scnt := 2 }) = .next t) ∧
    (∃ u, exec .powerUp { withR { r0 with scnt := 2 } with regs := { r0 with scnt := 1, convStart := 5 } } = .next u) :=
  ⟨⟨_, rfl⟩, _, rfl⟩

theorem witness_CommandsButPollAndPowerUpAreIdempotent :
    Instr.getAdjusted .raw ≠ .poll ∧ Instr.getAdjusted .raw ≠ .powerUp ∧
      ∃ t, exec (.getAdjusted .raw) (withR { r0 with adjuster := 0 }) = .next t := ⟨by decide, by decide, _, rfl⟩

theorem witness_WellFormedCommandsRaiseOnlyDivByZero :
    (Instr.getAdjusted .raw).wellFormed = true ∧ (withR r0).regs.adjuster ≠ 0 ∧ (withR r0).NoError ∧
      ∃ t, exec (.getAdjusted .raw) (withR r0) = .next t := ⟨rfl, by decide, by decide, _, rfl⟩

theorem witness_TruncatedDivisionRoundsTowardZero : (256 : Int) ≠ 0 ∧ truncDiv (-300) 256 = -1 ∧ truncDiv (-255) 256 = 0 := by
  decide

/-- A difference of 2^31 - 1 does not overflow. -/
theorem witness_RawMinusTareWrapsToThirtyTwoBits :
    ((0x7FFFFFFF#32).toInt - (0#32).toInt).natAbs < 2 ^ 31 := by decide

theorem witness_AdjustedReadingIsTheTruncatedQuotient :
    (withR { r0 with adjuster := 0xFFFFFFFF }).regs.adjuster.toInt ≠ 0 ∧
    (withR { r0 with adjuster := 0 }).regs.adjuster.toInt = 0 := by decide

theorem witness_UnderTheWiringPremisePoweredDownPersists :
    (clockHigh { r0 with clkDrv := true, status := .poweredDown }).Wired ∧
    (clockHigh { r0 with clkDrv := true, status := .poweredDown }).regs.clkDrv = true ∧
    (clockHigh { r0 with clkDrv := true, status := .poweredDown }).regs.status = .poweredDown ∧
    Instr.poll ≠ .powerUp ∧ (∀ c, Instr.poll = .setGain c → c = 0b11) ∧
    ∃ t, exec .poll (clockHigh { r0 with clkDrv := true, status := .poweredDown }) = .next t :=
  ⟨by decide, rfl, rfl, by decide, by simp, _, rfl⟩

theorem witness_PollAfterPowerDownReportsPoweredDown :
    ∃ t, exec .powerDown (clockHigh r0) = .next t ∧ t.Wired := ⟨_, rfl, by decide⟩

theorem witness_PollReportsPowerDownOnAHighClockLine :
    (clockHigh r0).clkLevel = true ∧ (ready r0 0 0).clkLevel = false := by decide

/-- CONV_START at 2^32 - 256 ms, NOW_MS 499 ms later, across the wrap (P-4). -/
theorem witness_ElapsedIsTheTrueTimeModuloTheWrap :
    (4294967040 ≤ 4294967539) ∧
    (busyAt { r0 with convStart := 0xFFFFFF00 } 0xF3).regs.convStart = BitVec.ofNat 32 4294967040 ∧
    (busyAt { r0 with convStart := 0xFFFFFF00 } 0xF3).sampleClk.nowMs = BitVec.ofNat 32 4294967539 := by decide

/-- Busy at 499 ms and timed out at 500 ms, the default TIMEOUT_MS. -/
theorem witness_PollReportsBusyOrTimedOut :
    ((busyAt r0 499).clkLevel = false ∧ (busyAt r0 499).readyLevel = true ∧ (busyAt r0 499).elapsedMs = 499) ∧
    ((busyAt r0 500).clkLevel = false ∧ (busyAt r0 500).readyLevel = true ∧ (busyAt r0 500).elapsedMs = 500) ∧
    (busyAt r0 500).params.timeoutMs.toNat = 500 := by
  decide

/-- The hypotheses of the obligations about a transfer, met by a state that seeds and by one that recovers: a transfer, of
a block with the source's literals, which are legal and place the sample at bit 8. -/
theorem witness_TransferNext :
    (ready { r0 with scnt := 2 } 0x000A00 100).TransferNext ∧
    (ready { r0 with status := .timedOut, scnt := 3 } 0xFFFFFF 100).TransferNext ∧
    (ready { r0 with scnt := 2 } 0x000A00 100).params.Legal ∧
    (ready { r0 with scnt := 2 } 0x000A00 100).params.SourceLiterals ∧
    (ready { r0 with scnt := 2 } 0x000A00 100).params.scale = 2 ^ 8 ∧
    (ready { r0 with scnt := 2 } 0x000A00 100).params.sampleBits + 8 = 32 := by decide

/-- The three ways of the settling gate at the values where they meet. -/
theorem witness_TransferCountsSeedsOrSmooths :
    (ready { r0 with scnt := 1 } 1 1).gateCount + 1 < 3 ∧ (ready { r0 with scnt := 2 } 1 1).gateCount + 1 = 3 ∧
    (ready { r0 with scnt := 3 } 1 1).gateCount = 3 := by decide

theorem witness_SmoothingStaysBetweenTheOldValueAndTheReading :
    (ready { r0 with scnt := 3 } 0x000A00 100).params.Legal ∧
    (ready { r0 with scnt := 3 } 0x000A00 100).TransferNext ∧
    (ready { r0 with scnt := 3 } 0x000A00 100).regs.ruv.toNat ≤ (ready { r0 with scnt := 3 } 0x000A00 100).gateCount := by
  decide

/-- A state with a threshold of 2 and these POLLs lined up: a transfer, a busy one, a transfer, one with the clock line
high, a transfer. -/
def threeTransfers : State :=
  { withR { r0 with ruv := 2 } with
    env :=
      ⟨⟨[false, false, false, true, false], 0⟩,
        ⟨false :: bitsOf 0x000A00 ++ [true] ++ false :: bitsOf 0x000A00 ++ false :: bitsOf 0x000B00, 0⟩,
        ⟨[1, 2, 3, 4], 0⟩⟩ }

/-- Each clause: transfer 1 of 2, a busy POLL that does not count, transfer 2, a POLL with the clock line high, and the
transfer after; and a gate reset that is the recovery from a timeout. -/
theorem witness_ReadingsBecomeValidAtTheThresholdTransfer :
    threeTransfers.regs.scnt = 0 ∧ threeTransfers.regs.ruv.toNat = 2 ∧ threeTransfers.params.Legal ∧
    ((afterPolls 0 threeTransfers).TransferNext ∧ transfersSince 1 threeTransfers = 1) ∧
    (¬ (afterPolls 1 threeTransfers).TransferNext ∧ transfersSince 2 threeTransfers = 1) ∧
    ((afterPolls 2 threeTransfers).TransferNext ∧ transfersSince 3 threeTransfers = 2) ∧
    (¬ (afterPolls 3 threeTransfers).TransferNext ∧ transfersSince 4 threeTransfers = 2) ∧
    ((afterPolls 4 threeTransfers).TransferNext ∧ transfersSince 5 threeTransfers = 3) ∧
    ((ready { r0 with status := .timedOut, scnt := 3 } 1 1).regs.status = .timedOut ∧
      (ready { r0 with status := .timedOut, scnt := 3 } 1 1).TransferNext) := by decide

theorem witness_RaisingTheThresholdHoldsWhileStatusStaysValid :
    (ready { r0 with status := .valid, scnt := 3 } 1 1).regs.status = .valid ∧
    (ready { r0 with status := .valid, scnt := 3 } 1 1).regs.scnt.toNat + 1 < (5#8).toNat ∧
    ∃ t, exec (.setReadsUntilValid 5) (ready { r0 with status := .valid, scnt := 3 } 1 1) = .next t ∧ t.TransferNext :=
  ⟨rfl, by decide, _, rfl, by decide⟩

theorem witness_SequencerRunsToTheAtomicPoll : State.reset.params.Legal ∧ longestPoll State.reset.params ≤ 86 := by decide

theorem witness_LongestPollTakesEightySixMicroStates :
    (ready { r0 with gain := .gain64, scnt := 2 } 1 1).params.SourceLiterals ∧
    (ready { r0 with gain := .gain64, scnt := 2 } 1 1).params.Legal ∧
    (ready { r0 with gain := .gain64, scnt := 2 } 1 1).TransferNext ∧
    ¬ (ready { r0 with gain := .gain64, scnt := 2 } 1 1).gateCount + 1 <
      (ready { r0 with gain := .gain64, scnt := 2 } 1 1).regs.ruv.toNat := by decide

theorem witness_AssemblerWritesEveryWellFormedCommand : (Instr.setTare 0x80000000).wellFormed = true := by decide

end Sys2Proof.Tests
end

section
/-! PROOFS. The host's levels and the parameters: a command writes neither, whole or abandoned, so no step writes the
parameters (R5, R262). -/

namespace Sys2Proof.Machine

/-- A command other than POLL, POWER_DOWN and POWER_UP writes registers at most and answers a result: it is a `finish`,
the raised error of SET_GAIN and GET_ADJUSTED included (R62, R224). -/
theorem exec_eq_finish (i : Instr) (s : State) (hi : leavesLinesAlone i = true) :
    ∃ r res, exec i s = s.finish r res := by
  cases i
  case poll | powerDown | powerUp => cases hi
  case setGain code =>
    simp only [exec, execSetGain]
    cases gainOfCode code <;> exact ⟨_, _, rfl⟩
  case getAdjusted sel =>
    simp only [exec, execGetAdjusted]
    split <;> exact ⟨_, _, rfl⟩
  all_goals exact ⟨_, _, rfl⟩

/-- A POLL writes neither the host's levels nor the parameters, whichever of its four ways it goes (R100, R226). -/
theorem execPoll_keeps_hostIn_params (s t : State) (h : execPoll s = .next t) :
    t.hostIn = s.hostIn ∧ t.params = s.params := by
  obtain ⟨-, e⟩ | ⟨-, -, -, e⟩ | ⟨-, -, -, e⟩ | ⟨htr, -⟩ := execPoll_cases s
  case inr.inr.inr =>
    rw [execPoll_transfer s htr] at h
    cases h; exact ⟨rfl, rfl⟩
  all_goals
    rw [e] at h
    cases h; exact ⟨rfl, rfl⟩

/-- A command writes neither the host's levels nor the parameters. -/
theorem exec_keeps_hostIn_params (i : Instr) (s t : State) (h : exec i s = .next t) :
    t.hostIn = s.hostIn ∧ t.params = s.params := by
  cases hi : leavesLinesAlone i with
  | true =>
    obtain ⟨r, res, e⟩ := exec_eq_finish i s hi
    rw [e, finish_eq] at h
    cases h; exact ⟨rfl, rfl⟩
  | false =>
    cases i
    case poll => exact execPoll_keeps_hostIn_params s t h
    case powerDown | powerUp => cases h; exact ⟨rfl, rfl⟩
    all_goals cases hi

/-- An accepted command word writes neither the host's levels nor the parameters, a rejected one neither (R224). -/
theorem runCommand_keeps_hostIn_params (word arg : Word) (s t : State) (h : runCommand word arg s = .next t) :
    t.hostIn = s.hostIn ∧ t.params = s.params := by
  unfold runCommand at h
  split at h
  · exact exec_keeps_hostIn_params _ s t h
  · rw [raise_eq] at h
    cases h; exact ⟨rfl, rfl⟩

/-- One micro-state of a POLL writes neither the host's levels nor the parameters (R109). -/
theorem microStep_keeps_hostIn_params (q : Seq) :
    (microStep q).m.hostIn = q.m.hostIn ∧ (microStep q).m.params = q.m.params := by
  rcases q with ⟨micro, bit, pulse, sample, done, m⟩
  cases micro
  case bitLo => cases bit <;> exact ⟨rfl, rfl⟩
  case pulseLo =>
    simp only [microStep]
    split <;> exact ⟨rfl, rfl⟩
  case gate =>
    simp only [microStep]
    rcases m.regs.settle m.params with ⟨r, g⟩
    cases g <;> exact ⟨rfl, rfl⟩
  all_goals exact ⟨rfl, rfl⟩

/-- Any number of micro-states of a POLL write neither the host's levels nor the parameters (R109). -/
theorem microRun_keeps_hostIn_params (n : Nat) (q : Seq) :
    (microRun n q).m.hostIn = q.m.hostIn ∧ (microRun n q).m.params = q.m.params := by
  induction n generalizing q with
  | zero => exact ⟨rfl, rfl⟩
  | succ n ih =>
    obtain ⟨hh, hp⟩ := microStep_keeps_hostIn_params q
    obtain ⟨ih_hostIn, ih_params⟩ := ih (microStep q)
    exact ⟨ih_hostIn.trans hh, ih_params.trans hp⟩

/-- A command abandoned on its way has written neither the host's levels nor the parameters (R260, R261). -/
theorem abandonedAfter_keeps_hostIn_params (k : Nat) (word arg : Word) (s : State) :
    (abandonedAfter k word arg s).hostIn = s.hostIn ∧ (abandonedAfter k word arg s).params = s.params := by
  unfold abandonedAfter
  split_ifs
  · exact microRun_keeps_hostIn_params k (seqStart s)
  · exact ⟨rfl, rfl⟩
  · exact ⟨rfl, rfl⟩
  · obtain ⟨t, ht⟩ := runCommand_next word arg s
    rw [ht]
    exact runCommand_keeps_hostIn_params word arg s t ht

/-- Settles O17: of the ways a step can go, a command and an abandoned command keep the parameters by the lemmas above,
and reset writes the registers, the draws and the result only. -/
theorem stepKeepsTheInstanceParameters : Obligations.StepKeepsTheInstanceParameters := by
  intro s t hst
  obtain ⟨-, e⟩ | ⟨h, rest, -, way⟩ := step_cases s
  · rw [e] at hst
    cases hst; rfl
  obtain ⟨-, -, e⟩ | ⟨-, -, -, e⟩ | ⟨-, -, -, e⟩ | ⟨u, -, e, hu⟩ := way <;> rw [e] at hst
  · exact (runCommand_keeps_hostIn_params _ _ _ t hst).2
  · cases hst; rfl
  · cases hst; rfl
  · cases hst
    obtain rfl | ⟨k, -, rfl⟩ := hu
    · rfl
    · exact (abandonedAfter_keeps_hostIn_params k _ _ _).2

end Sys2Proof.Machine
end

section
/-! PROOFS. Truncated division (R7). -/

namespace Sys2Proof.Machine

/-- The magnitude of a truncated quotient is the quotient of the magnitudes (R7). -/
theorem truncDiv_natAbs (a b : Int) : (truncDiv a b).natAbs = a.natAbs / b.natAbs := Int.natAbs_tdiv a b

/-- A truncated quotient is negative exactly when the signs differ and the quotient does not round to 0 (R7). -/
theorem truncDiv_neg_iff (a b : Int) : truncDiv a b < 0 ↔ a * b < 0 ∧ b.natAbs ≤ a.natAbs := by
  rw [truncDiv, ← Int.sign_eq_neg_one_iff_neg, Int.sign_tdiv, ← Int.sign_mul]
  split
  case isTrue hlt => simp [hlt]
  case isFalse hle => rw [Int.sign_eq_neg_one_iff_neg, and_iff_left (Nat.le_of_not_lt hle)]

/-- Settles O25: a product is negative exactly when its factors have opposite signs. -/
theorem truncatedDivisionRoundsTowardZero : Obligations.TruncatedDivisionRoundsTowardZero := by
  intro a b _
  refine ⟨truncDiv_natAbs a b, ?_⟩
  rw [truncDiv_neg_iff, mul_neg_iff, or_comm]

end Sys2Proof.Machine
end

section
/-! PROOFS. What each command leaves: a POLL's registers by its four ways, and the write columns of R41 as a frame. -/

namespace Sys2Proof.Machine

/-- A POLL that reads the clock line high (R101). -/
theorem execPoll_of_clk_high (s : State) (hc : s.clkLevel = true) :
    execPoll s = .next
      { s with
        regs := { s.regs with status := .poweredDown }
        rsp := some 1
        trace := [.rdClk true]
        env := s.env.after 1 0 0 } := by
  obtain ⟨-, e⟩ | ⟨h, -⟩ | ⟨h, -⟩ | ⟨⟨h, -⟩, -⟩ := execPoll_cases s
  case inl => exact e
  all_goals rw [hc] at h; cases h

/-- The registers a POLL leaves: STATUS is written at most where it is no transfer, and a transfer leaves what the
settling gate makes of them (R100, R226). -/
theorem execPoll_regs (s t : State) (h : execPoll s = .next t) :
    (¬ s.TransferNext ∧ ∃ st, t.regs = { s.regs with status := st }) ∨
    (s.TransferNext ∧ t.regs = afterGate s.params (beforeGate s)) := by
  obtain ⟨hc, e⟩ | ⟨-, hr, -, e⟩ | ⟨-, hr, -, e⟩ | ⟨htr, -⟩ := execPoll_cases s
  case inr.inr.inr =>
    rw [execPoll_transfer s htr] at h
    cases h; exact .inr ⟨htr, rfl⟩
  all_goals
    rw [e] at h
    cases h
    refine .inl ⟨?_, _, rfl⟩
    simp [*]

/-- The registers a transfer leaves that its settling gate does not write: the reading, the two times and the clock line
(R104 to R108). -/
theorem transfer_writes (s : State) :
    (afterGate s.params (beforeGate s)).raw =
      placeSample s.params (sampleOf s.params.sampleBits (s.env.after 1 1 0)) s.regs.raw ∧
    (afterGate s.params (beforeGate s)).timestamp = s.regs.convStart ∧
    (afterGate s.params (beforeGate s)).convStart = s.nowMs ∧
    (afterGate s.params (beforeGate s)).clkDrv = (beforeGate s).clkDrv := by
  obtain ⟨hraw, -, htime, hconv, -, -, -, -, -, -, -, -, hclk⟩ := afterGate_agrees s.params (beforeGate s)
  rw [hraw (by decide), htime (by decide), hconv (by decide), hclk (by decide), beforeGate_eq]
  exact ⟨rfl, rfl, rfl, rfl⟩

/-- The six registers a transfer keeps (R41). -/
theorem transfer_keeps (s : State) :
    (afterGate s.params (beforeGate s)).gain = s.regs.gain ∧ (afterGate s.params (beforeGate s)).alpha = s.regs.alpha ∧
    (afterGate s.params (beforeGate s)).ruv = s.regs.ruv ∧ (afterGate s.params (beforeGate s)).tare = s.regs.tare ∧
    (afterGate s.params (beforeGate s)).adjuster = s.regs.adjuster ∧
    (afterGate s.params (beforeGate s)).err = s.regs.err := by
  obtain ⟨-, -, -, -, -, hgain, halpha, hruv, -, htare, hadj, herr, -⟩ := afterGate_agrees s.params (beforeGate s)
  rw [hgain (by decide), halpha (by decide), hruv (by decide), htare (by decide), hadj (by decide), herr (by decide)]
  exact (beforeGate_kept s).2

/-- A POLL's row of the write columns of R41. -/
theorem execPoll_agrees (s t : State) (h : execPoll s = .next t) : AgreeExcept (mayWrite .poll) s.regs t.regs := by
  obtain ⟨-, st, e⟩ | ⟨-, e⟩ := execPoll_regs s t h
  · simp [e, AgreeExcept, mayWrite]
  · obtain ⟨hgain, halpha, hruv, htare, hadj, herr⟩ := transfer_keeps s
    simp [e, AgreeExcept, mayWrite, hgain, halpha, hruv, htare, hadj, herr]

/-- SET_GAIN raises on the code 0b11 and restarts the settling gate on every other code (R202). -/
theorem execSetGain_cases (code : BitVec 2) (s : State) :
    (code = 0b11 ∧ execSetGain code s = s.raise .illegalGain) ∨
    (code ≠ 0b11 ∧ ∃ g, execSetGain code s = s.finish { s.regs with gain := g, status := .init, scnt := 0 } 0) := by
  unfold execSetGain
  cases hg : gainOfCode code with
  | none => exact .inl ⟨(gainOfCode_eq_none code).mp hg, rfl⟩
  | some g =>
    refine .inr ⟨fun hc => ?_, g, rfl⟩
    rw [(gainOfCode_eq_none code).mpr hc] at hg
    cases hg

/-- GET_ADJUSTED raises while ADJUSTER is 0, and writes nothing otherwise (R179). -/
theorem execGetAdjusted_cases (sel : Reading) (s : State) :
    (s.regs.adjuster = 0 ∧ execGetAdjusted sel s = s.raise .divByZero) ∨
    (s.regs.adjuster ≠ 0 ∧
      execGetAdjusted sel s = s.finish s.regs (quotient32 (s.regs.tared sel) s.regs.adjuster)) := by
  unfold execGetAdjusted
  by_cases h : s.regs.adjuster = 0
  · exact .inl ⟨h, if_pos h⟩
  · exact .inr ⟨h, if_neg h⟩

/-- A command changes no register outside its write columns of R41. -/
theorem exec_agrees (i : Instr) (s t : State) (h : exec i s = .next t) :
    AgreeExcept (mayWrite i) s.regs t.regs := by
  cases i
  case poll => exact execPoll_agrees s t h
  case setGain code =>
    obtain ⟨-, e⟩ | ⟨-, g, e⟩ := execSetGain_cases code s
    all_goals
      cases e.symm.trans h
      simp [AgreeExcept, mayWrite]
  case getAdjusted sel =>
    obtain ⟨-, e⟩ | ⟨-, e⟩ := execGetAdjusted_cases sel s
    all_goals
      cases e.symm.trans h
      simp [AgreeExcept, mayWrite]
  all_goals
    cases h
    simp [AgreeExcept, mayWrite]

/-- Settles O18: the columns are `exec_agrees`, and a command other than POLL, POWER_DOWN and POWER_UP is a `finish`. -/
theorem commandsWriteOnlyTheirRegisters : Obligations.CommandsWriteOnlyTheirRegisters := by
  intro i s t h
  obtain ⟨hhost, hparams⟩ := exec_keeps_hostIn_params i s t h
  refine ⟨exec_agrees i s t h, hhost, hparams, fun hi => ?_⟩
  obtain ⟨r, res, e⟩ := exec_eq_finish i s hi
  rw [e, finish_eq] at h
  cases h
  exact ⟨rfl, rfl⟩

end Sys2Proof.Machine
end

section
/-! PROOFS. The invariant (R26, R34): reset establishes it, every command keeps it, so every step does. -/

namespace Sys2Proof.Machine

/-- SCNT = 0 is within every RUV (R34). -/
theorem zero_le_byte (b : Byte) : 0 ≤ b := BitVec.le_def.mpr (Nat.zero_le _)

/-- Registers at their reset values meet the invariant, whatever NOW_MS and the legal parameters are (R42). -/
theorem inv_of_reset_regs (s : State) (now : Word) (hp : s.params.Legal) (hr : s.regs = Regs.reset s.params now) :
    s.Inv := by
  rw [State.Inv, hr]
  exact ⟨hp, zero_le_byte _, rfl⟩

/-- Settles O14: the reset state holds the reset values of its own parameters. -/
theorem invariantHoldsAfterReset : Obligations.InvariantHoldsAfterReset :=
  fun p now hp => inv_of_reset_regs (State.resetAt p now) now hp rfl

/-- Step 3 of a transfer keeps SCNT ≤ RUV: it leaves SCNT or writes 0 (R104). -/
theorem beforeGate_scnt_le_ruv (s : State) (h : s.regs.scnt ≤ s.regs.ruv) :
    (beforeGate s).scnt ≤ (beforeGate s).ruv := by
  rw [beforeGate_eq, Regs.recover]
  cases s.regs.status
  case timedOut => exact zero_le_byte _
  all_goals exact h

/-- The settling gate keeps SCNT ≤ RUV: it counts only below RUV (R144). -/
theorem afterGate_scnt_le_ruv (p : Config.Params) (r : Regs) (h : r.scnt ≤ r.ruv) :
    (afterGate p r).scnt ≤ (afterGate p r).ruv := by
  rw [BitVec.le_def] at h ⊢
  obtain ⟨hlt, -, c, hc, e⟩ | ⟨heq, -, c, hc, e⟩ | ⟨-, -, e⟩ := afterGate_cases p r <;> rw [e]
  · exact hc.trans_le hlt.le
  · exact (hc.trans heq).le
  · exact h

/-- A POLL keeps SCNT ≤ RUV (R34). -/
theorem execPoll_keeps_scnt_le_ruv (s t : State) (hs : s.regs.scnt ≤ s.regs.ruv) (h : execPoll s = .next t) :
    t.regs.scnt ≤ t.regs.ruv := by
  obtain ⟨-, st, e⟩ | ⟨-, e⟩ := execPoll_regs s t h <;> rw [e]
  · exact hs
  · exact afterGate_scnt_le_ruv _ _ (beforeGate_scnt_le_ruv s hs)

/-- A command keeps SCNT ≤ RUV (R34): SET_READS_UNTIL_VALID by its clamp, POWER_UP and SET_GAIN by writing SCNT 0, and
the commands that write neither register by their frame. -/
theorem exec_keeps_scnt_le_ruv (i : Instr) (s t : State) (hs : s.regs.scnt ≤ s.regs.ruv) (h : exec i s = .next t) :
    t.regs.scnt ≤ t.regs.ruv := by
  obtain ⟨-, -, -, -, -, -, -, hruv, hscnt, -, -, -, -⟩ := exec_agrees i s t h
  cases i
  case poll => exact execPoll_keeps_scnt_le_ruv s t hs h
  case setGain code =>
    obtain ⟨-, e⟩ | ⟨-, g, e⟩ := execSetGain_cases code s <;> cases e.symm.trans h
    · exact hs
    · exact zero_le_byte _
  case powerUp => cases h; exact zero_le_byte _
  case setReadsUntilValid n =>
    cases h
    show (if n < s.regs.scnt then n else s.regs.scnt) ≤ n
    split
    · exact BitVec.le_refl n
    · exact BitVec.not_lt.mp ‹_›
  all_goals
    rw [hruv (by simp [mayWrite]), hscnt (by simp [mayWrite])]
    exact hs

/-- A command keeps RAW's low part (R26): only a transfer writes RAW, and it places the sample above that part. -/
theorem exec_keeps_raw_low (i : Instr) (s t : State) (hp : s.params.Legal) (h : exec i s = .next t) :
    t.regs.raw.toInt % s.params.scale = s.regs.raw.toInt % s.params.scale := by
  by_cases hi : i = .poll
  · subst hi
    obtain ⟨-, st, e⟩ | ⟨-, e⟩ := execPoll_regs s t h
    · rw [e]
    · rw [e, (transfer_writes s).1, placeSample_low s.params hp]
  · have hraw : RegName.raw ∉ mayWrite i := by
      cases i
      case poll => exact absurd rfl hi
      all_goals simp [mayWrite]
    rw [(exec_agrees i s t h).1 hraw]

/-- A command keeps the invariant. -/
theorem exec_keeps_inv (i : Instr) (s t : State) (hs : s.Inv) (h : exec i s = .next t) : t.Inv := by
  obtain ⟨hp, hscnt, hraw⟩ := hs
  have hparams := (exec_keeps_hostIn_params i s t h).2
  rw [State.Inv, hparams]
  exact ⟨hp, exec_keeps_scnt_le_ruv i s t hscnt h, (exec_keeps_raw_low i s t hp h).trans hraw⟩

/-- An accepted command word keeps the invariant, a rejected one too: raising writes ERR only (R224). -/
theorem runCommand_keeps_inv (word arg : Word) (s t : State) (hs : s.Inv) (h : runCommand word arg s = .next t) :
    t.Inv := by
  unfold runCommand at h
  split at h
  · exact exec_keeps_inv _ s t hs h
  · rw [raise_eq] at h
    cases h
    exact hs

/-- Settles O15: a command keeps the invariant, a reset establishes it for the parameters that the abandoned command has
kept, and the other steps write neither registers nor parameters. -/
theorem everyStepKeepsTheSettlingBoundAndTheRawLowByte :
    Obligations.EveryStepKeepsTheSettlingBoundAndTheRawLowByte := by
  intro s t hs hst
  obtain ⟨-, e⟩ | ⟨h, rest, -, way⟩ := step_cases s
  · rw [e] at hst
    cases hst; exact hs
  obtain ⟨-, -, e⟩ | ⟨-, -, -, e⟩ | ⟨-, -, -, e⟩ | ⟨u, -, e, hu⟩ := way <;> rw [e] at hst
  · exact runCommand_keeps_inv _ _ { s with hostIn := rest } t hs hst
  · cases hst; exact hs
  · cases hst; exact hs
  · cases hst
    have hparams : u.params = s.params := by
      obtain rfl | ⟨k, -, rfl⟩ := hu
      · rfl
      · exact (abandonedAfter_keeps_hostIn_params k _ _ _).2
    exact inv_of_reset_regs u.applyReset u.nowMs (by rw [applyReset_params, hparams]; exact hs.1) rfl

end Sys2Proof.Machine
end

section
/-! PROOFS. The command port (R20), reset (R42, R260) and ERR (R37, R225): what a step does with one entry of the host's
levels. -/

namespace Sys2Proof.Machine

/-- A step with nothing offered waits (R260). -/
theorem step_of_nil (s : State) (hs : s.hostIn = []) : step s = .next s := by
  simp only [step, hs]

/-- A step uses up the first entry of the host's levels (log 9). -/
theorem step_of_cons (s : State) (h : HostIn) (rest : List HostIn) (hs : s.hostIn = h :: rest) :
    step s = hostStep h { s with hostIn := rest } := by
  simp only [step, hs, State.nextHostIn, List.tail_cons]

/-- With RST = 0 a step is one transaction of the port (R20; log 8). -/
theorem step_of_low (s : State) (h : HostIn) (rest : List HostIn) (hs : s.hostIn = h :: rest) (hr : h.rst = .low) :
    step s = portStep h { s with hostIn := rest } := by
  rw [step_of_cons s h rest hs, hostStep, hr]

/-- With CMD_VALID = 1 and CMD_READY = 1 the port runs the offered words (R20, R86). -/
theorem portStep_of_accepted (h : HostIn) (s : State) (hv : h.cmdValid = true) (hc : s.cmdReady = true) :
    portStep h s = runCommand h.cmdWord h.cmdArg s := by
  simp [portStep, accepts, hv, hc]

/-- Where no command is accepted, the port clears the result if RSP_READY = 1 and does nothing else (R20). -/
theorem portStep_of_not_accepted (h : HostIn) (s : State) (ha : accepts h s = false) :
    portStep h s = .next { s with rsp := if h.rspReady then none else s.rsp } := by
  cases hr : h.rspReady <;> simp [portStep, ha, hr]

/-- Words that decode to a command run it (R86). -/
theorem runCommand_of_decode (word arg : Word) (i : Instr) (s : State) (hd : decode word arg = .ok i) :
    runCommand word arg s = exec i s := by
  simp only [runCommand, hd]

/-- The command of an instruction given as one number is what its two words decode to (log 20). -/
theorem decode_of_decodeTableWord (nbits w : Nat) (i : Instr) (h : decodeTableWord nbits w = some i) :
    decode (tableCommandWord nbits w) (tableOperandWord nbits w) = .ok i := by
  unfold decodeTableWord at h
  split at h
  next hd => cases h; exact hd
  next => cases h

/-- With RST = 0, CMD_VALID = 1 and CMD_READY = 1 a step runs the offered words (R20, R86). -/
theorem step_of_accepted (s : State) (h : HostIn) (rest : List HostIn) (hs : s.hostIn = h :: rest) (hr : h.rst = .low)
    (hv : h.cmdValid = true) (hc : s.cmdReady = true) :
    step s = runCommand h.cmdWord h.cmdArg { s with hostIn := rest } := by
  rw [step_of_low s h rest hs hr, portStep_of_accepted h { s with hostIn := rest } hv hc]

/-- With RST = 0 a step that accepts no command clears the result if RSP_READY = 1 and writes nothing else (R20). -/
theorem step_of_not_accepted (s : State) (h : HostIn) (rest : List HostIn) (hs : s.hostIn = h :: rest)
    (hr : h.rst = .low) (ha : accepts h s = false) :
    step s = .next { s with hostIn := rest, rsp := if h.rspReady then none else s.rsp } := by
  rw [step_of_low s h rest hs hr, portStep_of_not_accepted h { s with hostIn := rest } ha]

/-- Settles O8: the port accepts the offered words, and `withFetchWord` offers those that `decodeTableWord` reads. -/
theorem stepRunsTheAcceptedCommand : Obligations.StepRunsTheAcceptedCommand := by
  refine ⟨fun s h rest hs hr hv hc => ⟨step_of_accepted s h rest hs hr hv hc, fun i hd => ?_⟩, fun s nbits w i hd => ?_⟩
  · rw [step_of_accepted s h rest hs hr hv hc, runCommand_of_decode _ _ i _ hd]
  · rw [step_of_accepted (s.withFetchWord nbits w) (offer _ _) s.hostIn rfl rfl rfl rfl]
    exact runCommand_of_decode _ _ i _ (decode_of_decodeTableWord nbits w i hd)

/-- Settles O9: a presented result takes CMD_READY away, so no command is accepted; nor is one without CMD_VALID. -/
theorem resultIsHeldUntilTheHostTakesIt : Obligations.ResultIsHeldUntilTheHostTakesIt := by
  refine ⟨fun s h rest res hs hr hres => ?_, fun s h rest hs hr hnone hv => ?_, step_of_nil⟩
  · rw [step_of_not_accepted s h rest hs hr (by simp [accepts, State.cmdReady, hres]), hres]
  · rw [step_of_not_accepted s h rest hs hr (by simp [accepts, hv]), hnone, ite_self]

/-- Settles O11: a step with RST = 1 at its edge is `applyReset`. -/
theorem resetGivesEveryRegisterItsResetValue : Obligations.ResetGivesEveryRegisterItsResetValue := by
  intro s h rest hs hr
  refine ⟨State.applyReset { s with hostIn := rest }, ?_, rfl, rfl, rfl, rfl, rfl, rfl, rfl⟩
  rw [step_of_cons s h rest hs, hostStep, hr]

/-- Settles O13: each value is the one `Regs.reset` takes from the default parameters. -/
theorem resetStateHoldsTheStatedValues : Obligations.ResetStateHoldsTheStatedValues := by
  refine ⟨rfl, rfl, rfl, ?_, ?_⟩ <;> decide

/-- ERR is as it was, or one cause's bit has been set in it (R224). -/
def ErrKeptOrRaised (a b : Regs) : Prop := b.err = a.err ∨ ∃ c : Cause, b.err = a.errWith c

/-- A raised error sets one bit (R224). -/
theorem raise_errKeptOrRaised (c : Cause) (s t : State) (h : s.raise c = .next t) : ErrKeptOrRaised s.regs t.regs := by
  rw [raise_eq] at h
  cases h
  exact .inr ⟨c, rfl⟩

/-- A command sets at most one ERR bit and clears none (R37, R225): only SET_GAIN and GET_ADJUSTED can raise. -/
theorem exec_errKeptOrRaised (i : Instr) (s t : State) (h : exec i s = .next t) : ErrKeptOrRaised s.regs t.regs := by
  obtain ⟨-, -, -, -, -, -, -, -, -, -, -, herr, -⟩ := exec_agrees i s t h
  cases i
  case setGain code =>
    obtain ⟨-, e⟩ | ⟨-, g, e⟩ := execSetGain_cases code s
    · exact raise_errKeptOrRaised .illegalGain s t (e.symm.trans h)
    · cases e.symm.trans h; exact .inl rfl
  case getAdjusted sel =>
    obtain ⟨-, e⟩ | ⟨-, e⟩ := execGetAdjusted_cases sel s
    · exact raise_errKeptOrRaised .divByZero s t (e.symm.trans h)
    · cases e.symm.trans h; exact .inl rfl
  all_goals exact .inl (herr (by simp [mayWrite]))

/-- An accepted command word sets at most one ERR bit: its command's, or its decoding's (R86, R225). -/
theorem runCommand_errKeptOrRaised (word arg : Word) (s t : State) (h : runCommand word arg s = .next t) :
    ErrKeptOrRaised s.regs t.regs := by
  unfold runCommand at h
  split at h
  · exact exec_errKeptOrRaised _ s t h
  · exact raise_errKeptOrRaised _ s t h

/-- Without reset, a step sets at most one ERR bit (R228): where no command is accepted it writes no register. -/
theorem portStep_errKeptOrRaised (h : HostIn) (s t : State) (hst : portStep h s = .next t) :
    ErrKeptOrRaised s.regs t.regs := by
  cases ha : accepts h s with
  | true =>
    rw [portStep, if_pos ha] at hst
    exact runCommand_errKeptOrRaised _ _ s t hst
  | false =>
    rw [portStep_of_not_accepted h s ha] at hst
    cases hst
    exact .inl rfl

/-- Settles O16: each of the four causes has its own bit. -/
theorem stepSetsAtMostOneErrorBitAndClearsNone : Obligations.StepSetsAtMostOneErrorBitAndClearsNone := by
  intro s t h rest hs hr hst
  rw [step_of_low s h rest hs hr] at hst
  obtain e | ⟨c, e⟩ := portStep_errKeptOrRaised h { s with hostIn := rest } t hst
  · exact .inl e
  · exact .inr ⟨c.bit, by cases c <;> decide, e⟩

end Sys2Proof.Machine
end

section
/-! PROOFS. The clock line and STATUS (R38, R113, R221), and the two hidden registers (R45). -/

namespace Sys2Proof.Machine

/-- Settles O19: POLL by its ways, the power commands by their meaning, every other command by its frame. -/
theorem clockLineFollowsPowerCommandsAndTransfers : Obligations.ClockLineFollowsPowerCommandsAndTransfers := by
  intro i s t h
  refine ⟨?_, ?_, ?_, fun hdown hup hpoll => ?_⟩
  · rintro rfl; cases h; rfl
  · rintro rfl; cases h; rfl
  · rintro rfl htr hp
    obtain ⟨hno, -⟩ | ⟨-, e⟩ := execPoll_regs s t h
    · exact absurd htr hno
    · rw [e, (transfer_writes s).2.2.2, beforeGate_clkDrv s hp]
  · obtain ⟨-, -, -, -, -, -, -, -, -, -, -, -, hclk⟩ := exec_agrees i s t h
    cases i
    case poll =>
      obtain ⟨-, st, e⟩ | ⟨htr, -⟩ := execPoll_regs s t h
      · rw [e]
      · exact absurd ⟨rfl, htr⟩ hpoll
    case powerDown => exact absurd rfl hdown
    case powerUp => exact absurd rfl hup
    all_goals exact hclk (by simp [mayWrite])

/-- Settles O35: under W1 a POLL reads the driven high level and reports PoweredDown again; POWER_DOWN drives high and
leaves STATUS; a SET_GAIN of 0b11 raises; every other command writes neither register. -/
theorem underTheWiringPremisePoweredDownPersists : Obligations.UnderTheWiringPremisePoweredDownPersists := by
  intro i s t hw hclk hst hup hgain h
  obtain ⟨-, -, -, -, hstatus, -, -, -, -, -, -, -, hclkDrv⟩ := exec_agrees i s t h
  cases i
  case poll =>
    cases (execPoll_of_clk_high s (hw.trans hclk)).symm.trans h
    exact ⟨rfl, hclk⟩
  case powerDown => cases h; exact ⟨hst, rfl⟩
  case powerUp => exact absurd rfl hup
  case setGain code =>
    obtain ⟨-, e⟩ | ⟨hlegal, -⟩ := execSetGain_cases code s
    · cases e.symm.trans h
      exact ⟨hst, hclk⟩
    · exact absurd (hgain code rfl) hlegal
  all_goals exact ⟨(hstatus (by simp [mayWrite])).trans hst, (hclkDrv (by simp [mayWrite])).trans hclk⟩

/-- Settles O36: POWER_DOWN drives the clock line high, so under W1 the POLL after it reads it high. -/
theorem pollAfterPowerDownReportsPoweredDown : Obligations.PollAfterPowerDownReportsPoweredDown := by
  intro s t h hw
  cases h
  exact ⟨rfl, _, execPoll_of_clk_high _ hw, rfl, rfl⟩

/-- Sel(S) reads neither SCNT nor CONV_START (R170). -/
theorem selected_of_hidden (r : Regs) (scnt : Byte) (conv : Word) (sel : Reading) :
    { r with scnt := scnt, convStart := conv }.selected sel = r.selected sel := by
  cases sel <;> rfl

/-- Diff(S) reads neither SCNT nor CONV_START (R171). -/
theorem tared_of_hidden (r : Regs) (scnt : Byte) (conv : Word) (sel : Reading) :
    { r with scnt := scnt, convStart := conv }.tared sel = r.tared sel := by
  rw [Regs.tared, selected_of_hidden, Regs.tared]

/-- Settles O21: no command but POLL reads the two registers, so neither the result nor what is written to another
register comes from them; of the ways of SET_GAIN and GET_ADJUSTED both runs go the same. -/
theorem hiddenRegistersReachOnlyPoll : Obligations.HiddenRegistersReachOnlyPoll := by
  intro i s t u scnt conv hi ht hu
  cases i
  case poll => exact absurd rfl hi
  case setGain code =>
    simp only [exec, execSetGain] at ht hu
    cases hg : gainOfCode code
    all_goals
      simp only [hg] at ht hu
      cases ht; cases hu
      simp [AgreeExcept, Regs.errWith]
  case getAdjusted sel =>
    simp only [exec, execGetAdjusted] at ht hu
    by_cases ha : s.regs.adjuster = 0
    all_goals
      simp only [ha, if_true, if_false] at ht hu
      cases ht; cases hu
      simp [AgreeExcept, Regs.errWith, tared_of_hidden, ha]
  all_goals
    cases ht; cases hu
    simp [AgreeExcept, selected_of_hidden, tared_of_hidden, State.nowMs]

end Sys2Proof.Machine
end

section
/-! PROOFS. The elapsed time (R103) and the reading of a transfer (R25, R106). -/

namespace Sys2Proof.Machine

/-- The difference of two times, each read modulo 2^32, is their true difference modulo 2^32 (R103). -/
theorem elapsed_ofNat (r : Regs) (a b : Nat) (hab : a ≤ b) (ha : r.convStart = BitVec.ofNat 32 a) :
    (r.elapsed (BitVec.ofNat 32 b)).toNat = (b - a) % 2 ^ 32 := by
  simp only [Regs.elapsed, ha, BitVec.toNat_sub, BitVec.toNat_ofNat]
  omega

/-- Settles O39: Elapsed is b - a modulo 2^32, which is b - a itself below 2^32. -/
theorem elapsedIsTheTrueTimeModuloTheWrap : Obligations.ElapsedIsTheTrueTimeModuloTheWrap := by
  rintro p r t a b hab ha rfl
  have he := elapsed_ofNat r a b hab ha
  refine ⟨he, fun hlt => ?_, ?_⟩
  · rw [he, Nat.mod_eq_of_lt hlt]
  · rw [Regs.timedOutAt, he, decide_eq_true_iff]

/-- The bits a transfer samples after its step-2 sample of DOUT, in a sample's own numbering: the first one is bit
SAMPLE_BITS - 1 (R106). -/
theorem getLsbD_sampleOf (n : Nat) (e : Env) (j : Nat) (hj : j < n) (hn : n ≤ 32) :
    (sampleOf n (e.after 1 1 0)).getLsbD j = e.dataAhead (n - j) := by
  rw [BitVec.getLsbD_eq_getElem (by omega), getElem_sampleOf, decide_eq_true hj, Bool.true_and, Env.dataAhead_after]
  congr 1
  omega

/-- Legal parameters have a sample of at most 24 bits: the wider ones would leave no room for SCALE in an i32 (log 19). -/
theorem sampleBits_le_of_legal (p : Config.Params) (hp : p.Legal) : p.sampleBits ≤ 24 := by
  obtain ⟨-, hscale, hword, -⟩ := hp
  have : 2 ^ 8 * 2 ^ p.sampleBits ≤ 2 ^ 8 * 2 ^ 24 := (Nat.mul_le_mul_right _ hscale).trans hword
  exact (Nat.pow_le_pow_iff_right (by omega)).mp (Nat.le_of_mul_le_mul_left this (by omega))

/-- RAW's low part where SCALE is 256 is RAW[7:0] (R26). -/
theorem toInt_emod_256 (x : Word) : x.toInt % 256 = (x.toNat % 256 : Nat) := by
  rw [BitVec.toInt_eq_toNat_cond]
  omega

/-- Settles O40: what a transfer writes and keeps before its settling gate is what the gate leaves, and RAW is R106's
pattern of the sampled bits. -/
theorem transferWritesTheReadingAndKeepsSixRegisters : Obligations.TransferWritesTheReadingAndKeepsSixRegisters := by
  intro s htr
  obtain ⟨hraw, htime, hconv, hclk⟩ := transfer_writes s
  obtain ⟨hgain, halpha, hruv, htare, hadj, herr⟩ := transfer_keeps s
  refine ⟨_, execPoll_transfer s htr, fun k hs hn => ?_, htime, hconv, fun hp => ?_, hgain, halpha, hruv, htare, hadj,
    herr, rfl, rfl, rfl⟩
  · rw [hraw]
    constructor <;> intro j hj <;> rw [getLsbD_placeSample s.params k hs hn _ _ _ (by omega)]
    · rw [if_neg (by omega), Nat.add_sub_cancel_left, getLsbD_sampleOf _ _ _ hj (by omega)]
    · rw [if_pos hj]
  · exact hclk.trans (beforeGate_clkDrv s hp)

/-- Settles O42: the sample is the SAMPLE_BITS bits the transfer draws, and legal parameters let RAW hold its reading. -/
theorem readingIsTheSampleTimesScale : Obligations.ReadingIsTheSampleTimesScale := by
  intro s hp htr
  have hbits := sampleBits_le_of_legal s.params hp
  have hraw := congrArg BitVec.toInt (transfer_writes s).1
  rw [placeSample_toInt s.params hp] at hraw
  refine ⟨_, (sampleOf s.params.sampleBits (s.env.after 1 1 0)).setWidth s.params.sampleBits,
    execPoll_transfer s htr, fun j hj => ?_, hraw, fun h256 => ?_⟩
  · rw [BitVec.getLsbD_setWidth, decide_eq_true hj, Bool.true_and, getLsbD_sampleOf _ _ _ hj (by omega)]
  · rw [h256] at hraw
    rw [← toInt_emod_256]
    exact hraw

end Sys2Proof.Machine
end

section
/-! PROOFS. The sequencer's paths through a POLL (R109), each ending in the state of the atomic POLL (R46). -/

namespace Sys2Proof.Machine

@[simp] theorem withRegs_withRegs (s : State) (r r' : Regs) : (s.withRegs r).withRegs r' = s.withRegs r' := rfl

@[simp] theorem beginCommand_clkLevel (s : State) : s.beginCommand.clkLevel = s.clkLevel := rfl

/-- The sample of PD_SCK_RB leaves DOUT's draws, so `readyLevel` is the level a POLL's step 2 reads (R102). -/
@[simp] theorem sampleClk_dataLevel (s : State) : s.beginCommand.sampleClk.dataLevel = s.readyLevel := by
  simp [State.dataLevel, State.readyLevel]

/-- The samples of the two lines leave NOW_MS's draws (R23). -/
@[simp] theorem sampleData_nowMs (s : State) : s.beginCommand.sampleClk.sampleData.nowMs = s.nowMs := by
  simp [State.nowMs]

/-- From GATE a transfer takes 2 micro-states where the gate holds and 3 where it passes, and ends as the atomic gate does
(R111, R144). -/
theorem microRun_gate (q : Seq) (hq : q.micro = .gate) :
    ∃ k ≤ 3, (microRun k q).micro = .idle ∧
      (microRun k q).m = q.m.settleAndReport.1.respond (doneWord q.m.settleAndReport.2) := by
  rcases q with ⟨micro, bit, pulse, sample, done, m⟩
  cases hq
  rcases hg : m.regs.settle m.params with ⟨r, g⟩
  cases g
  case hold => exact ⟨2, by omega, by simp [microRun, microStep, State.settleAndReport, hg]⟩
  case pass => exact ⟨3, by omega, by simp [microRun, microStep, State.settleAndReport, hg]⟩

/-- The state of a transfer at its first data pulse: recovered and stamped (R104, R105). -/
def State.atFirstBit (s : State) : State :=
  s.beginCommand.sampleClk.sampleData.withRegs { s.regs.recover with timestamp := s.regs.recover.convStart }

/-- A transfer from its first data pulse on (R106 to R108). -/
theorem transfer_eq_atFirstBit (s : State) :
    s.beginCommand.sampleClk.sampleData.transfer =
      let pulsed := gainPulses (pulses s.atFirstBit.shiftIn24.params s.atFirstBit.shiftIn24.regs.gain)
        s.atFirstBit.shiftIn24
      pulsed.sampleNow.withRegs { pulsed.regs with convStart := pulsed.nowMs } := rfl

/-- The data pulses write neither the parameters nor GAIN, which count the gain pulses after them (R106, R107). -/
theorem pulses_shiftIn24_atFirstBit (s : State) :
    pulses s.atFirstBit.shiftIn24.params s.atFirstBit.shiftIn24.regs.gain = pulses s.params s.regs.gain := by
  have hgain : s.regs.recover.gain = s.regs.gain := by unfold Regs.recover; split <;> rfl
  rw [State.shiftIn24, (shiftBits_spec _ 0 _).1]
  simp [State.atFirstBit, hgain, apply_ite Regs.gain]

/-- The first four micro-states of a transfer, CHK_CLK to STAMP (R101 to R105). -/
theorem microRun_to_first_bit (s : State) (htr : s.TransferNext) :
    microRun 4 (seqStart s) =
      { micro := .bitHi, bit := s.params.sampleBits - 1, pulse := 0, sample := 0, done := false, m := s.atFirstBit } := by
  obtain ⟨hc, hd⟩ := htr
  simp [microRun, microStep, seqStart, hc, hd, State.atFirstBit]

/-- The micro-states of a transfer from CHK_CLK to the last BIT_LO shift in its SAMPLE_BITS bits (R106). -/
theorem microRun_to_first_pulse (s : State) (hp : s.params.Legal) (htr : s.TransferNext) :
    ∃ x, microRun (4 + 3 * s.params.sampleBits) (seqStart s) =
      { micro := .pulseHi, bit := 0, pulse := 1, sample := x, done := false, m := s.atFirstBit.shiftIn24 } := by
  obtain ⟨n, hn⟩ := Nat.exists_eq_add_of_le' hp.1
  have hm : s.atFirstBit.params.sampleBits = n + 1 := hn
  rw [microRun_add, microRun_to_first_bit s htr, hn, microRun_bits n _ rfl rfl, State.shiftIn24, hm]
  exact ⟨_, rfl⟩

/-- The micro-states of a transfer from CHK_CLK to START reach GATE in the state that steps 3 to 7 give (R104 to R108). -/
theorem microRun_to_gate (s : State) (hp : s.params.Legal) (htr : s.TransferNext) :
    (microRun (4 + 3 * s.params.sampleBits + 2 * pulses s.params s.regs.gain + 1) (seqStart s)).micro = .gate ∧
    (microRun (4 + 3 * s.params.sampleBits + 2 * pulses s.params s.regs.gain + 1) (seqStart s)).m =
      s.beginCommand.sampleClk.sampleData.transfer := by
  obtain ⟨x, hx⟩ := microRun_to_first_pulse s hp htr
  obtain ⟨j, hj⟩ := Nat.exists_eq_succ_of_ne_zero (pulses_ne_zero s.params hp s.regs.gain)
  have hcount := pulses_shiftIn24_atFirstBit s
  rw [transfer_eq_atFirstBit, hcount, microRun_add, microRun_add, hx, hj,
    microRun_pulses j _ rfl (by rw [hcount, hj]; exact Nat.add_comm 1 j)]
  exact ⟨rfl, rfl⟩

/-- A POLL that finds the clock line high ends after CHK_CLK, SET_PD and RESPOND (R101). -/
theorem microRun_poll_of_clk_high (s : State) (hc : s.clkLevel = true) :
    (microRun 3 (seqStart s)).micro = .idle ∧ execPoll s = .next (microRun 3 (seqStart s)).m := by
  simp [microRun, microStep, seqStart, execPoll, State.pollPass, hc]

/-- A busy POLL ends after CHK_CLK, CHK_DATA, CHK_TIME and RESPOND, with SET_TO before RESPOND where it times out
(R102). -/
theorem microRun_poll_of_busy (s : State) (hc : s.clkLevel = false) (hd : s.readyLevel = true) :
    ∃ k ≤ 5, (microRun k (seqStart s)).micro = .idle ∧ execPoll s = .next (microRun k (seqStart s)).m := by
  cases ht : s.regs.timedOutAt s.params s.nowMs with
  | true =>
    exact ⟨5, le_rfl, by simp [microRun, microStep, seqStart, execPoll, State.pollPass, State.busy, hc, hd, ht]⟩
  | false =>
    exact ⟨4, by omega, by simp [microRun, microStep, seqStart, execPoll, State.pollPass, State.busy, hc, hd, ht]⟩

/-- A transfer ends within its pulses' micro-states and 8 more (R109). -/
theorem microRun_poll_of_transfer (s : State) (hp : s.params.Legal) (htr : s.TransferNext) :
    ∃ k ≤ 4 + 3 * s.params.sampleBits + 2 * pulses s.params s.regs.gain + 1 + 3,
      (microRun k (seqStart s)).micro = .idle ∧ execPoll s = .next (microRun k (seqStart s)).m := by
  obtain ⟨hgate, hm⟩ := microRun_to_gate s hp htr
  obtain ⟨k, hk, hidle, hend⟩ := microRun_gate _ hgate
  refine ⟨_, Nat.add_le_add_left hk _, ?_⟩
  rw [microRun_add, hend, hm]
  refine ⟨hidle, ?_⟩
  obtain ⟨h, -⟩ | ⟨-, h, -⟩ | ⟨-, h, -⟩ | ⟨-, e⟩ := execPoll_cases s
  case inr.inr.inr => exact e
  all_goals simp [htr] at h

/-- No gain takes more pulses than `longestPoll` counts (R109). -/
theorem transfer_le_longestPoll (p : Config.Params) (g : GainMode) :
    4 + 3 * p.sampleBits + 2 * pulses p g + 1 + 3 ≤ longestPoll p := by
  cases g <;> simp only [pulses, longestPoll] <;> omega

/-- The sequencer ends a POLL in the state of the atomic POLL, within the micro-states of the longest one (R46, R109). -/
theorem microRun_ends_in_atomic_poll (s : State) (hp : s.params.Legal) :
    ∃ k ≤ longestPoll s.params,
      (microRun k (seqStart s)).micro = .idle ∧ execPoll s = .next (microRun k (seqStart s)).m := by
  cases hc : s.clkLevel with
  | true => exact ⟨3, by unfold longestPoll; omega, microRun_poll_of_clk_high s hc⟩
  | false =>
    cases hd : s.readyLevel with
    | true =>
      obtain ⟨k, hk, h⟩ := microRun_poll_of_busy s hc hd
      exact ⟨k, by unfold longestPoll; omega, h⟩
    | false =>
      obtain ⟨k, hk, h⟩ := microRun_poll_of_transfer s hp ⟨hc, hd⟩
      exact ⟨k, hk.trans (transfer_le_longestPoll _ _), h⟩

/-- Settles O49: once idle, the sequencer stays in the state it has ended in. -/
theorem sequencerRunsToTheAtomicPoll : Obligations.SequencerRunsToTheAtomicPoll := by
  intro s hp
  obtain ⟨k, hk, hidle, hpoll⟩ := microRun_ends_in_atomic_poll s hp
  refine ⟨_, hpoll, fun n hn => ?_, ?_⟩
  · obtain ⟨d, rfl⟩ := Nat.exists_eq_add_of_le (hk.trans hn)
    rw [microRun_add, microRun_idle d _ hidle]
    exact ⟨hidle, rfl⟩
  · rintro ⟨hbits, -, -, h128, h32, h64⟩
    rw [longestPoll, hbits, h128, h32, h64]
    rfl

end Sys2Proof.Machine
end

section
/-! PROOFS. The idempotence of every command but POLL and POWER_UP (R68): such a command computes the registers it writes
and its result from values it does not change, or has already brought to where they stay. -/

namespace Sys2Proof.Machine

/-- A command that answers by `finish` leaves the registers given to it. -/
theorem finish_regs {s t : State} {r : Regs} {res : Word} (h : s.finish r res = .next t) : t.regs = r := by
  cases h; rfl

/-- A `finish` with the same registers and result repeats itself. -/
theorem finish_idempotent {s t : State} {r : Regs} {res : Word} (h : s.finish r res = .next t) :
    t.finish r res = .next t := by
  cases h; rfl

/-- Setting an ERR bit twice sets it once (R224). -/
theorem errWith_errWith (r : Regs) (c : Cause) : { r with err := r.errWith c }.errWith c = r.errWith c := by
  simp only [Regs.errWith, BitVec.or_assoc, BitVec.or_self]

/-- A cause raised again changes nothing more: the ERR bits are sticky (R224, R228). -/
theorem raise_idempotent {s t : State} {c : Cause} (h : s.raise c = .next t) : t.raise c = .next t := by
  unfold State.raise at h ⊢
  rw [finish_regs h, errWith_errWith]
  exact finish_idempotent h

/-- Sel(S) does not read TARE (R170). -/
theorem selected_of_tare (r : Regs) (value : Word) (sel : Reading) :
    { r with tare := value }.selected sel = r.selected sel := by
  cases sel <;> rfl

/-- Diff(S) does not read ADJUSTER (R171). -/
theorem tared_of_adjuster (r : Regs) (value : Word) (sel : Reading) :
    { r with adjuster := value }.tared sel = r.tared sel := by
  cases sel <;> rfl

/-- TARE copies a reading it does not write (R172). -/
theorem execTare_idempotent {sel : Reading} {s t : State} (h : execTare sel s = .next t) :
    execTare sel t = .next t := by
  unfold execTare at h ⊢
  rw [finish_regs h, selected_of_tare]
  exact finish_idempotent h

/-- ADJUST_TO computes ADJUSTER from registers it does not write (R176). -/
theorem execAdjustTo_idempotent {sel : Reading} {target : Word} {s t : State}
    (h : execAdjustTo sel target s = .next t) : execAdjustTo sel target t = .next t := by
  unfold execAdjustTo at h ⊢
  rw [finish_regs h, tared_of_adjuster]
  exact finish_idempotent h

/-- A clamped SCNT is not above its threshold, so SET_READS_UNTIL_VALID clamps it no further (R151). -/
theorem execSetReadsUntilValid_idempotent {threshold : Byte} {s t : State}
    (h : execSetReadsUntilValid threshold s = .next t) : execSetReadsUntilValid threshold t = .next t := by
  have hclamped : ¬ threshold < t.regs.scnt := by
    rw [finish_regs h]
    dsimp only
    split
    case isTrue => exact BitVec.lt_irrefl threshold
    case isFalse hle => exact hle
  rw [execSetReadsUntilValid, if_neg hclamped, finish_regs h]
  exact finish_idempotent h

/-- SET_GAIN goes the same way both times: the code alone decides (R202). -/
theorem execSetGain_idempotent {code : BitVec 2} {s t : State} (h : execSetGain code s = .next t) :
    execSetGain code t = .next t := by
  unfold execSetGain at h ⊢
  cases hg : gainOfCode code with
  | none =>
    rw [hg] at h
    exact raise_idempotent h
  | some g =>
    rw [hg] at h
    rw [finish_regs h]
    exact finish_idempotent h

/-- GET_ADJUSTED goes the same way both times: it keeps ADJUSTER on either (R179). -/
theorem execGetAdjusted_idempotent {sel : Reading} {s t : State} (h : execGetAdjusted sel s = .next t) :
    execGetAdjusted sel t = .next t := by
  obtain ⟨hz, e⟩ | ⟨hnz, e⟩ := execGetAdjusted_cases sel s <;> rw [e] at h
  · have ht : t.regs.adjuster = 0 := by rw [finish_regs h]; exact hz
    rw [execGetAdjusted, if_pos ht]
    exact raise_idempotent h
  · have ht : t.regs = s.regs := finish_regs h
    rw [execGetAdjusted, ht, if_neg hnz]
    exact finish_idempotent h

/-- Settles O22: the commands that read what they write, or that can raise, by the lemmas above; each other one writes
operands and constants, or answers a register and writes none. -/
theorem commandsButPollAndPowerUpAreIdempotent : Obligations.CommandsButPollAndPowerUpAreIdempotent := by
  intro i s t hpoll hup h
  cases i
  case poll => exact absurd rfl hpoll
  case powerUp => exact absurd rfl hup
  case setGain => exact execSetGain_idempotent h
  case tare => exact execTare_idempotent h
  case adjustTo => exact execAdjustTo_idempotent h
  case getAdjusted => exact execGetAdjusted_idempotent h
  case setReadsUntilValid => exact execSetReadsUntilValid_idempotent h
  all_goals cases h; rfl

end Sys2Proof.Machine
end

section
/-! PROOFS. The three fields of a command word (R80), and the bits of an operand word that a command reads (R83). -/

namespace Sys2Proof.Machine

/-- The fields RSV, S and OP make up the whole word (R80). -/
theorem word_eq_of_fields {v w : Word} (hop : opField v = opField w) (hsel : selField v = selField w)
    (hrsv : rsvField v = rsvField w) : v = w := by
  apply BitVec.eq_of_getLsbD_eq
  intro i hi
  obtain h | rfl | h := Nat.lt_trichotomy i 5
  · simpa [opField, h] using congrArg (·.getLsbD i) hop
  · exact hsel
  · simpa [rsvField, show i - 6 < 26 by omega, show 6 + (i - 6) = i by omega] using congrArg (·.getLsbD (i - 6)) hrsv

@[simp] theorem opField_commandWord (op : BitVec 5) (sel : Reading) : opField (commandWord op sel) = op := by
  cases sel <;> revert op <;> decide

@[simp] theorem selField_commandWord (op : BitVec 5) (sel : Reading) :
    selField (commandWord op sel) = bitOfReading sel := by
  cases sel <;> revert op <;> decide

@[simp] theorem rsvField_commandWord (op : BitVec 5) (sel : Reading) : rsvField (commandWord op sel) = 0 := by
  cases sel <;> revert op <;> decide

/-- A word is the one of OP and S exactly when these are its fields and its reserved bits are 0 (R80). -/
theorem eq_commandWord_iff (word : Word) (op : BitVec 5) (sel : Reading) :
    word = commandWord op sel ↔ opField word = op ∧ selField word = bitOfReading sel ∧ rsvField word = 0 := by
  constructor
  · rintro rfl
    simp
  · rintro ⟨hop, hsel, hrsv⟩
    exact word_eq_of_fields (by simp [hop]) (by simp [hsel]) (by simp [hrsv])

theorem opField_and (v w : Word) : opField (v &&& w) = opField v &&& opField w := BitVec.extractLsb'_and

theorem selField_and (v w : Word) : selField (v &&& w) = (selField v && selField w) := BitVec.getLsbD_and

theorem rsvField_and (v w : Word) : rsvField (v &&& w) = rsvField v &&& rsvField w := BitVec.extractLsb'_and

@[simp] theorem readingOfBit_bitOfReading (sel : Reading) : readingOfBit (bitOfReading sel) = sel := by
  cases sel <;> rfl

theorem eq_readingOfBit_iff (sel : Reading) (b : Bool) : sel = readingOfBit b ↔ b = bitOfReading sel := by
  cases b <;> cases sel <;> decide

/-- A k-bit operand, padded with zeros, is the masked word exactly when it is the word's low field (R83). -/
theorem setWidth_eq_and_iff {k : Nat} (hk : k ≤ 32) (b : BitVec k) (arg mask : Word) (hm : mask.toNat = 2 ^ k - 1) :
    b.setWidth 32 = arg &&& mask ↔ arg.extractLsb' 0 k = b := by
  have hlow : arg &&& mask = (arg.extractLsb' 0 k).setWidth 32 := by
    apply BitVec.eq_of_toNat_eq
    simp [hm, BitVec.toNat_setWidth_of_le hk]
  constructor
  · intro h
    have := congrArg (BitVec.setWidth k) (h.trans hlow)
    simpa [BitVec.setWidth_setWidth_of_le _ hk] using this.symm
  · rintro rfl
    exact hlow.symm

/-- The bits that a command reads are read from themselves (R83). -/
theorem operandBits_operandBits (op : BitVec 5) (arg : Word) :
    operandBits op (operandBits op arg) = operandBits op arg := by
  unfold operandBits
  split_ifs
  · rw [BitVec.and_assoc, BitVec.and_self]
  · rw [BitVec.and_assoc, BitVec.and_self]
  · rfl
  · rfl

end Sys2Proof.Machine
end

section
/-! PROOFS. The decoder (R86): which words it accepts, for which command, and why it rejects the others. -/

namespace Sys2Proof.Machine

/-- Every command has an opcode of R85. -/
theorem opAssigned_op (i : Instr) : opAssigned i.op = true := by
  cases i <;> rfl

/-- A command without S has S = 0 (R80). -/
theorem sel_of_not_takesSel (i : Instr) (h : opTakesSel i.op = false) : i.sel = .raw := by
  cases i
  case getRaw | tare | getRawMinusTare | adjustTo | getAdjusted => cases h
  all_goals rfl

/-- The opcode map gives a command its own opcode (R85). -/
theorem op_of_commandOfOp {n : Nat} {sel : Reading} {arg : Word} {i : Instr} (h : commandOfOp n sel arg = some i) :
    i.op.toNat = n := by
  unfold commandOfOp at h
  split at h <;> cases h <;> rfl

/-- At a command's opcode the map gives that command exactly where S and the operand bits are its own (R83, R85). -/
theorem commandOfOp_op_iff (i : Instr) (sel : Reading) (arg : Word) :
    commandOfOp i.op.toNat sel arg = some i ↔
      (opTakesSel i.op = true → i.sel = sel) ∧ i.arg = operandBits i.op arg := by
  cases i <;>
    simp [commandOfOp, Instr.op, Instr.sel, Instr.arg, operandBits, opTakesSel, setWidth_eq_and_iff, eq_comm]

/-- The commands of an opcode: S is its own where the opcode takes S, and the operand is in the bits that are read
(R83, R85). -/
theorem commandOfOp_eq_some_iff (op : BitVec 5) (sel : Reading) (arg : Word) (i : Instr) :
    commandOfOp op.toNat sel arg = some i ↔
      i.op = op ∧ (opTakesSel op = true → i.sel = sel) ∧ i.arg = operandBits op arg := by
  constructor
  · intro h
    obtain rfl : i.op = op := BitVec.eq_of_toNat_eq (op_of_commandOfOp h)
    exact ⟨rfl, (commandOfOp_op_iff i sel arg).mp h⟩
  · rintro ⟨rfl, h⟩
    exact (commandOfOp_op_iff i sel arg).mpr h

/-- The bits of an operand word that a command ignores do not reach it (R83). -/
theorem commandOfOp_operandBits (op : BitVec 5) (sel : Reading) (arg : Word) :
    commandOfOp op.toNat sel (operandBits op arg) = commandOfOp op.toNat sel arg := by
  apply Option.ext
  intro i
  simp only [commandOfOp_eq_some_iff, operandBits_operandBits]

/-- An assigned opcode is one of 0x01 .. 0x15 (R87). -/
theorem opAssigned_iff (op : BitVec 5) : opAssigned op = true ↔ 1 ≤ op.toNat ∧ op.toNat ≤ 0x15 := by
  revert op
  decide

/-- Every assigned opcode has a command (R85). -/
theorem exists_commandOfOp (op : BitVec 5) (sel : Reading) (arg : Word) (h : opAssigned op = true) :
    ∃ i, commandOfOp op.toNat sel arg = some i := by
  obtain ⟨hlo, hhi⟩ := (opAssigned_iff op).mp h
  generalize op.toNat = n at hlo hhi
  interval_cases n <;> exact ⟨_, rfl⟩

/-- A reserved bit of the word is 1: one of RSV, or S on a command without S (R80, R88). -/
abbrev ReservedBitSet (word : Word) : Prop :=
  rsvField word ≠ 0 ∨ (selField word = true ∧ opTakesSel (opField word) = false)

theorem decode_of_not_assigned {word : Word} (arg : Word) (hop : opAssigned (opField word) = false) :
    decode word arg = .error .illegalOpcode := by
  simp [decode, hop]

theorem decode_of_reserved {word : Word} (arg : Word) (hop : opAssigned (opField word) = true)
    (hr : ReservedBitSet word) : decode word arg = .error .reservedField := by
  obtain hrsv | ⟨hsel, htakes⟩ := hr
  · simp_all [decode]
  · simp [decode, hop, hsel, htakes]

theorem decode_of_command {word arg : Word} {i : Instr} (hop : opAssigned (opField word) = true)
    (hr : ¬ ReservedBitSet word)
    (hi : commandOfOp (opField word).toNat (readingOfBit (selField word)) arg = some i) :
    decode word arg = .ok i := by
  obtain ⟨hrsv, hsel⟩ := not_or.mp hr
  simp_all [decode]

/-- What the decoder can do: reject the opcode, reject a reserved bit, or give the command of the opcode map (R86). -/
theorem decode_cases (word arg : Word) :
    (opAssigned (opField word) = false ∧ decode word arg = .error .illegalOpcode) ∨
    (opAssigned (opField word) = true ∧ ReservedBitSet word ∧ decode word arg = .error .reservedField) ∨
    (opAssigned (opField word) = true ∧ ¬ ReservedBitSet word ∧ ∃ i, decode word arg = .ok i ∧
      commandOfOp (opField word).toNat (readingOfBit (selField word)) arg = some i) := by
  cases hop : opAssigned (opField word) with
  | false => exact .inl ⟨rfl, decode_of_not_assigned arg hop⟩
  | true =>
    by_cases hr : ReservedBitSet word
    · exact .inr (.inl ⟨rfl, hr, decode_of_reserved arg hop hr⟩)
    · obtain ⟨i, hi⟩ := exists_commandOfOp (opField word) (readingOfBit (selField word)) arg hop
      exact .inr (.inr ⟨rfl, hr, i, decode_of_command hop hr hi, hi⟩)

theorem decode_eq_illegalOpcode_iff (word arg : Word) :
    decode word arg = .error .illegalOpcode ↔ opAssigned (opField word) = false := by
  obtain ⟨hop, e⟩ | ⟨hop, -, e⟩ | ⟨hop, -, i, e, -⟩ := decode_cases word arg <;> simp [hop, e]

theorem decode_eq_reservedField_iff (word arg : Word) :
    decode word arg = .error .reservedField ↔ opAssigned (opField word) = true ∧ ReservedBitSet word := by
  obtain ⟨hop, e⟩ | ⟨hop, hr, e⟩ | ⟨-, hr, i, e, -⟩ := decode_cases word arg
  · simp [e, hop]
  · simp [e, hop, hr]
  · simp [e, hr]

theorem decode_eq_ok_iff (word arg : Word) (i : Instr) :
    decode word arg = .ok i ↔ ¬ ReservedBitSet word ∧ i.op = opField word ∧
      (opTakesSel (opField word) = true → i.sel = readingOfBit (selField word)) ∧
      i.arg = operandBits (opField word) arg := by
  rw [← commandOfOp_eq_some_iff]
  obtain ⟨hop, e⟩ | ⟨-, hr, e⟩ | ⟨-, hr, j, e, hj⟩ := decode_cases word arg
  · have hnone : commandOfOp (opField word).toNat (readingOfBit (selField word)) arg ≠ some i := by
      rw [Ne, commandOfOp_eq_some_iff]
      rintro ⟨hi, -⟩
      rw [← hi, opAssigned_op] at hop
      cases hop
    simp [e, hnone]
  · simp [e, hr]
  · simp [e, hr, hj]

/-- A word without reserved bits that has a command's opcode, and its S where the opcode takes S, is the command's own
word (R80, R86). -/
theorem eq_commandWord_op_sel_iff (word : Word) (i : Instr) :
    word = commandWord i.op i.sel ↔ ¬ ReservedBitSet word ∧ i.op = opField word ∧
      (opTakesSel (opField word) = true → i.sel = readingOfBit (selField word)) := by
  rw [eq_commandWord_iff, ReservedBitSet, eq_readingOfBit_iff]
  by_cases hop : opField word = i.op
  · cases ht : opTakesSel i.op with
    | true => simp [hop, ht, and_comm]
    | false => simp [hop, ht, sel_of_not_takesSel i ht, bitOfReading, and_comm]
  · simp [hop, Ne.symm hop]

/-- A command's operand word has no bit that the command ignores (R83). -/
theorem arg_eq_operandBits (i : Instr) : i.arg = operandBits i.op i.arg := by
  cases i <;>
    simp [operandBits, Instr.op, Instr.arg, setWidth_eq_and_iff, ← BitVec.setWidth_eq_extractLsb']

theorem opField_toNat (word : Word) : (opField word).toNat = word.toNat % 32 := by
  simp [opField]

/-- The opcode is not assigned, as a fact about the word's number (R87). -/
theorem opAssigned_eq_false_iff (word : Word) :
    opAssigned (opField word) = false ↔ word.toNat % 32 = 0 ∨ 0x16 ≤ word.toNat % 32 := by
  rw [← Bool.not_eq_true, opAssigned_iff, opField_toNat]
  omega

theorem opTakesSel_eq_false_iff (op : BitVec 5) :
    opTakesSel op = false ↔ op.toNat ∉ ([0x08, 0x09, 0x0C, 0x0D, 0x10] : List Nat) := by
  revert op
  decide

/-- A reserved bit is 1, as a fact about the word's number (R88). -/
theorem reservedBitSet_iff (word : Word) :
    ReservedBitSet word ↔ 64 ≤ word.toNat ∨
      (word.toNat / 32 % 2 = 1 ∧ word.toNat % 32 ∉ ([0x08, 0x09, 0x0C, 0x0D, 0x10] : List Nat)) := by
  have hrsv : rsvField word ≠ 0 ↔ 64 ≤ word.toNat := by
    have h := word.isLt
    rw [Ne, ← BitVec.toNat_inj, rsvField, BitVec.extractLsb'_toNat, Nat.shiftRight_eq_div_pow]
    simp only [BitVec.ofNat_eq_ofNat, BitVec.toNat_ofNat]
    omega
  have hsel : selField word = true ↔ word.toNat / 32 % 2 = 1 := by
    rw [selField, BitVec.getLsbD, Nat.testBit_eq_decide_div_mod_eq, decide_eq_true_iff]
  rw [ReservedBitSet, hrsv, hsel, opTakesSel_eq_false_iff, opField_toNat]

/-- Settles O2: what the decoder asks of the word is that it is the command's own word. -/
theorem decodeAcceptsExactlyTheEncodedWords : Obligations.DecodeAcceptsExactlyTheEncodedWords := by
  intro word arg i
  rw [decode_eq_ok_iff, encode, eq_commandWord_op_sel_iff]
  constructor
  · rintro ⟨hr, hop, hsel, harg⟩
    exact ⟨⟨hr, hop, hsel⟩, hop ▸ harg⟩
  · rintro ⟨⟨hr, hop, hsel⟩, harg⟩
    exact ⟨hr, hop, hsel, hop ▸ harg⟩

/-- Settles O1: a command's own operand word agrees with its operand in every bit that is read. -/
theorem decodeReadsBackEveryEncodedCommand : Obligations.DecodeReadsBackEveryEncodedCommand := by
  intro i
  exact (decodeAcceptsExactlyTheEncodedWords _ _ i).mpr ⟨rfl, arg_eq_operandBits i⟩

/-- Settles O3: the opcode is checked first, so a word with an unassigned one is not rejected for its reserved bits. -/
theorem decodeRejectsByOpcodeThenReservedBits : Obligations.DecodeRejectsByOpcodeThenReservedBits := by
  intro word arg
  rw [decode_eq_illegalOpcode_iff, decode_eq_reservedField_iff, opAssigned_eq_false_iff, opAssigned_iff, opField_toNat,
    reservedBitSet_iff]
  exact ⟨Iff.rfl, Iff.rfl⟩

/-- Settles O5: the decoder reads the operand word through the opcode map alone. -/
theorem ignoredOperandBitsNeverMatter : Obligations.IgnoredOperandBitsNeverMatter := by
  intro word arg
  have hdecode : decode word arg = decode word (operandBits (opField word) arg) := by
    simp only [decode, commandOfOp_operandBits]
  refine ⟨hdecode, fun s => ?_⟩
  simp only [runCommand, ← hdecode]

end Sys2Proof.Machine
end

section
/-! PROOFS. A word names a command by R85's match and mask. -/

namespace Sys2Proof.Machine

/-- A command has the mnemonic of a row of the opcode map exactly when it has the opcode of its match (R85). -/
theorem mnemonic_eq_iff_op_eq (i : Instr) (row : OpcodeRow) (hrow : row ∈ opcodeTable) :
    i.mnemonic = row.mnemonic ↔ i.op = opField row.matchWord := by
  cases i <;> simp only [Instr.mnemonic, Instr.op] <;> revert row <;> decide

/-- A row's match is the word of an assigned opcode with S = 0 (R85). -/
theorem matchWord_of_mem_opcodeTable (row : OpcodeRow) (hrow : row ∈ opcodeTable) :
    opAssigned (opField row.matchWord) = true ∧ row.matchWord = commandWord (opField row.matchWord) .raw := by
  revert row
  decide

/-- A row's mask keeps OP and RSV, and keeps S where the opcode does not take it (R85). -/
theorem maskWord_of_mem_opcodeTable (row : OpcodeRow) (hrow : row ∈ opcodeTable) :
    opField row.maskWord = BitVec.allOnes 5 ∧ rsvField row.maskWord = BitVec.allOnes 26 ∧
      selField row.maskWord = !opTakesSel (opField row.matchWord) := by
  revert row
  decide

/-- The masked bits of a word are a row's match exactly when it has the row's opcode and no reserved bit (R85). -/
theorem and_maskWord_eq_matchWord_iff (word : Word) (row : OpcodeRow) (hrow : row ∈ opcodeTable) :
    word &&& row.maskWord = row.matchWord ↔ opField word = opField row.matchWord ∧ ¬ ReservedBitSet word := by
  obtain ⟨-, hmatch⟩ := matchWord_of_mem_opcodeTable row hrow
  obtain ⟨hop, hrsv, hsel⟩ := maskWord_of_mem_opcodeTable row hrow
  generalize opField row.matchWord = op at hmatch hsel ⊢
  rw [hmatch, eq_commandWord_iff, opField_and, selField_and, rsvField_and, hop, hrsv, hsel, BitVec.and_allOnes,
    BitVec.and_allOnes, ReservedBitSet]
  refine and_congr_right ?_
  rintro rfl
  cases opTakesSel (opField word) <;> simp [bitOfReading, and_comm]

/-- Settles O4: a word has the match of a row under its mask exactly when it is accepted and has the row's opcode, and
the opcode decides the mnemonic. -/
theorem commandsAreNamedByMatchAndMask : Obligations.CommandsAreNamedByMatchAndMask := by
  intro word arg row hrow
  rw [and_maskWord_eq_matchWord_iff word row hrow]
  constructor
  · rintro ⟨i, hd, hm⟩
    obtain ⟨hr, hi, -⟩ := (decode_eq_ok_iff word arg i).mp hd
    exact ⟨hi.symm.trans ((mnemonic_eq_iff_op_eq i row hrow).mp hm), hr⟩
  · rintro ⟨hop, hr⟩
    have hassigned : opAssigned (opField word) = true := hop ▸ (matchWord_of_mem_opcodeTable row hrow).1
    obtain ⟨i, hi⟩ := exists_commandOfOp (opField word) (readingOfBit (selField word)) arg hassigned
    obtain ⟨hiop, -⟩ := (commandOfOp_eq_some_iff ..).mp hi
    exact ⟨i, decode_of_command hassigned hr hi, (mnemonic_eq_iff_op_eq i row hrow).mpr (hiop.trans hop)⟩

end Sys2Proof.Machine
end

section
/-! PROOFS. What running words does: the rejected ones (R87, R88), the examples of R93, the commands that answer a
register (R84); and that no step stops the block (R230). -/

namespace Sys2Proof.Machine

/-- Words that are rejected raise the cause of their rejection (R86, R224). -/
theorem runCommand_of_error (word arg : Word) (e : DecodeError) (s : State) (hd : decode word arg = .error e) :
    runCommand word arg s = s.raise (causeOfDecodeError e) := by
  simp only [runCommand, hd]

/-- Settles O7: the words are those the decoder rejects, and a rejection raises its own cause. -/
theorem rejectedWordsSetOneErrorBitAndNothingElse : Obligations.RejectedWordsSetOneErrorBitAndNothingElse := by
  intro word arg s
  obtain ⟨hillegal, hreserved⟩ := decodeRejectsByOpcodeThenReservedBits word arg
  exact ⟨fun h => runCommand_of_error word arg _ s (hillegal.mpr h),
    fun h => runCommand_of_error word arg _ s (hreserved.mpr h)⟩

/-- Settles O6: the rejections hold for any operand word by what the decoder rejects, and SET_GAIN 0b11 is a raise. -/
theorem encodingExamplesDecodeAsTheSpecWritesThem : Obligations.EncodingExamplesDecodeAsTheSpecWritesThem := by
  refine ⟨rfl, rfl, rfl, rfl, rfl, rfl, rfl, fun arg => ⟨?_, ?_, ?_, ?_⟩, rfl, fun s => ?_⟩
  · exact (decode_eq_reservedField_iff 0x21 arg).mpr (by decide)
  · exact (decode_eq_illegalOpcode_iff 0x16 arg).mpr (by decide)
  · exact (decode_eq_illegalOpcode_iff 0x40 arg).mpr (by decide)
  · exact (decode_eq_reservedField_iff 0x41 arg).mpr (by decide)
  · exact runCommand_of_decode 0x3 0x3 (.setGain 0b11) s rfl

/-- Settles O24: each is a `finish` that writes no register. -/
theorem getCommandsAnswerTheirRegister : Obligations.GetCommandsAnswerTheirRegister := by
  intro s
  refine ⟨?_, ?_, ?_, ?_, ?_, rfl, rfl, rfl, rfl, rfl⟩
  · simp only [exec, execGetStatus, finish_eq, State.answered]
    cases s.regs.status <;> rfl
  · simp only [exec, execGetGain, finish_eq, State.answered]
    cases s.regs.gain <;> rfl
  all_goals
    rw [BitVec.ofNat_toNat]
    rfl

/-- Settles O10: a step that runs a command completes because the command does, and every other step by its own form. -/
theorem everyStepCompletes : Obligations.EveryStepCompletes := by
  intro s
  obtain ⟨-, e⟩ | ⟨h, rest, -, way⟩ := step_cases s
  · exact ⟨_, e⟩
  obtain ⟨-, -, e⟩ | ⟨-, -, -, e⟩ | ⟨-, -, -, e⟩ | ⟨u, -, e, -⟩ := way <;> rw [e]
  · exact runCommand_next _ _ _
  all_goals exact ⟨_, rfl⟩

end Sys2Proof.Machine
end

section
/-! PROOFS. The assembler (R91, R92). -/

namespace Sys2Proof.Machine

/-- No mnemonic of R85 is one of R92's. -/
theorem pseudoExpansion_mnemonic (i : Instr) : pseudoExpansion i.mnemonic = none := by
  cases i <;> rfl

/-- The opcode map has a row for every command's mnemonic (R85). -/
theorem exists_row_of_mnemonic (i : Instr) :
    ∃ row, opcodeTable.find? (fun row => row.mnemonic = i.mnemonic) = some row ∧ opField row.matchWord = i.op := by
  cases i <;> exact ⟨_, rfl, rfl⟩

/-- A command has S = 1 only where its opcode takes S (R80). -/
theorem bitOfReading_sel_and_not_takesSel (i : Instr) : (bitOfReading i.sel && !opTakesSel i.op) = false := by
  cases ht : opTakesSel i.op with
  | true => simp
  | false => rw [sel_of_not_takesSel i ht]; rfl

theorem operandWord_integer {field : OperandField} {v : Int} (hf : field ≠ .ignored) (hv : field.fits v = true) :
    operandWord field (some (.integer v)) = .ok (wrap32 v) := by
  simp [operandWord, AsmOperand.value, hf, hv]

/-- The number of an 8-bit operand is written as its zero-extension (R83, R91). -/
theorem operandWord_u8 (b : Byte) : operandWord .u8 (some (.integer b.toNat)) = .ok (b.setWidth 32) := by
  have hfits : OperandField.u8.fits b.toNat = true := by
    have := b.isLt
    simp only [OperandField.fits, Bool.and_eq_true, decide_eq_true_eq]
    omega
  rw [operandWord_integer (by decide) hfits, wrap32, BitVec.ofInt_natCast, BitVec.ofNat_toNat]

/-- The number of an i32 operand is written as the operand's own pattern (R83, R91). -/
theorem operandWord_i32 (w : Word) : operandWord .i32 (some (.integer w.toInt)) = .ok w := by
  have hfits : OperandField.i32.fits w.toInt = true := by
    have := w.toInt_lt
    have := w.le_toInt
    simp only [OperandField.fits, Bool.and_eq_true, decide_eq_true_eq]
    omega
  rw [operandWord_integer (by decide) hfits, wrap32, BitVec.ofInt_toInt]

/-- The assembler writes the operand of a well-formed command as its operand word (R83, R91). -/
theorem operandWord_asmOf (i : Instr) (hi : i.wellFormed = true) :
    operandWord (operandField i.op) (asmOf i).operand = .ok i.arg := by
  cases i
  case setGain code =>
    revert code
    decide
  case setAlpha b | setReadsUntilValid b => exact operandWord_u8 b
  case setTare w | setAdjuster w | adjustTo _ w => exact operandWord_i32 w
  all_goals rfl

/-- Settles O52: each part of R91's command gives its part of the encoding. -/
theorem assemblerWritesEveryWellFormedCommand : Obligations.AssemblerWritesEveryWellFormedCommand := by
  intro i hi
  obtain ⟨row, hfind, hop⟩ := exists_row_of_mnemonic i
  have hm : (asmOf i).mnemonic = i.mnemonic := rfl
  have hs : (asmOf i).dotS = bitOfReading i.sel := rfl
  simp only [assemble, hm, pseudoExpansion_mnemonic, assembleCore, hfind, hop, hs, bitOfReading_sel_and_not_takesSel,
    operandWord_asmOf i hi, readingOfBit_bitOfReading, encode, Bool.false_eq_true, if_false]

/-- Settles O53: by running the assembler on each line. -/
theorem assemblerLinesGiveTheWordsOfTheSpec : Obligations.AssemblerLinesGiveTheWordsOfTheSpec := by
  unfold Obligations.AssemblerLinesGiveTheWordsOfTheSpec
  decide

end Sys2Proof.Machine
end

section
/-! PROOFS. POLL's four ways and its results (R100 to R104, R111, R113): the clock line high, DOUT high, and the three
outcomes of the settling gate. -/

namespace Sys2Proof.Machine

/-- A POLL that reads DOUT high (R102): timed out or busy by the elapsed milliseconds, and no more. -/
theorem execPoll_of_data_high (s : State) (hc : s.clkLevel = false) (hd : s.readyLevel = true) :
    execPoll s = .next
      { s with
        regs := if s.params.timeoutMs.toNat ≤ s.elapsedMs then { s.regs with status := .timedOut } else s.regs
        rsp := some (if s.params.timeoutMs.toNat ≤ s.elapsedMs then 1 else 0)
        trace := [.rdClk false, .rdData true, .time s.nowMs]
        env := s.env.after 1 1 1 } := by
  obtain ⟨h, -⟩ | ⟨-, -, ht, e⟩ | ⟨-, -, ht, e⟩ | ⟨⟨-, h⟩, -⟩ := execPoll_cases s
  · rw [hc] at h; cases h
  · rw [timedOutAt_eq, decide_eq_true_iff] at ht
    rw [e, if_pos ht, if_pos ht]
  · rw [timedOutAt_eq, decide_eq_false_iff_not] at ht
    rw [e, if_neg ht, if_neg ht]
  · rw [hd] at h; cases h

/-- Settles O38: the compare of R102 is of the elapsed milliseconds. -/
theorem pollReportsBusyOrTimedOut : Obligations.PollReportsBusyOrTimedOut := execPoll_of_data_high

/-- Settles O37: whether DOUT then reads high or low, its sample is the second event of the trace. -/
theorem pollReportsPowerDownOnAHighClockLine : Obligations.PollReportsPowerDownOnAHighClockLine := by
  refine fun s => ⟨execPoll_of_clk_high s, fun hc => ?_⟩
  cases hd : s.readyLevel with
  | true => exact ⟨_, _, execPoll_of_data_high s hc hd, rfl⟩
  | false => exact ⟨_, _, execPoll_transfer s ⟨hc, hd⟩, rfl⟩

/-- Settles O44: the gate's three ways, in the numbers of SCNT and RUV as step 3 leaves them, are the statement's. -/
theorem transferCountsSeedsOrSmooths : Obligations.TransferCountsSeedsOrSmooths := by
  intro s htr
  refine ⟨_, execPoll_transfer s htr, ?_⟩
  obtain ⟨hsmoothed, -, halpha, hruv, -⟩ := beforeGate_kept s
  rw [← beforeGate_scnt, ← beforeGate_status, ← hsmoothed, ← halpha, ← hruv]
  obtain ⟨hlt, hg, c, hc, e⟩ | ⟨heq, hg, c, hc, e⟩ | ⟨hle, hg, e⟩ := afterGate_cases s.params (beforeGate s)
  all_goals rw [e, hg]
  · rw [if_pos hlt]
    exact ⟨hc, rfl, rfl, rfl⟩
  · rw [if_neg heq.not_lt, if_pos (Nat.lt_of_succ_le heq.le)]
    exact ⟨hc, rfl, rfl, rfl⟩
  · rw [if_neg (by omega), if_neg hle.not_gt]
    exact ⟨rfl, fun hp => smoothUpdate_toInt s.params hp _, rfl, rfl⟩

/-- A transfer's row of R113: the gate holds and STATUS is kept or recovered, or it passes and STATUS is Valid. -/
theorem execPoll_transfer_status (s : State) (htr : s.TransferNext) :
    ∃ t, execPoll s = .next t ∧
      (t.regs.status, t.rsp) =
        if s.gateCount + 1 < s.regs.ruv.toNat then (s.gateStatus, some 0) else (.valid, some 1) := by
  obtain ⟨t, ht, hgate⟩ := transferCountsSeedsOrSmooths s htr
  refine ⟨t, ht, ?_⟩
  split_ifs at hgate ⊢ <;> obtain ⟨-, -, hstatus, hrsp⟩ := hgate <;> rw [hstatus, hrsp]

/-- Settles O46: the two levels a POLL reads choose its way, and each way's row follows from its effect. -/
theorem pollMovesStatusByTheTransitionTable : Obligations.PollMovesStatusByTheTransitionTable := by
  intro s
  cases hc : s.clkLevel with
  | true => exact ⟨_, execPoll_of_clk_high s hc, rfl⟩
  | false =>
    cases hd : s.readyLevel with
    | true =>
      refine ⟨_, execPoll_of_data_high s hc hd, ?_⟩
      by_cases ht : s.params.timeoutMs.toNat ≤ s.elapsedMs <;> simp [ht]
    | false => exact execPoll_transfer_status s ⟨hc, hd⟩

end Sys2Proof.Machine
end

section
/-! PROOFS. The line trace of a transfer (R62, R105 to R108): its events in order, and how many pulses and samples they
are. -/

namespace Sys2Proof.Machine

/-- `n` gain pulses, of which the last stands at the end (R107). -/
theorem pulseEvents_succ (n : Nat) : pulseEvents (n + 1) = pulseEvents n ++ [.drive true, .drive false] := by
  simp [pulseEvents, List.replicate_succ']

/-- A data pulse drives the clock high once (R106). -/
theorem count_drive_true_bitEvents (e : Env) (n : Nat) : (bitEvents e n).count (.drive true) = n := by
  induction n generalizing e with
  | zero => rfl
  | succ n ih => simp [bitEvents_succ, ih]

/-- A data pulse samples DOUT once (R106). -/
theorem count_rdData_bitEvents (e : Env) (n : Nat) :
    (bitEvents e n).count (.rdData true) + (bitEvents e n).count (.rdData false) = n := by
  induction n generalizing e with
  | zero => rfl
  | succ n ih =>
    have := ih (e.after 0 1 0)
    cases h : e.dataAhead 0 <;> simp [bitEvents_succ, h] <;> omega

/-- A gain pulse drives the clock high once (R107). -/
theorem count_drive_true_pulseEvents (n : Nat) : (pulseEvents n).count (.drive true) = n := by
  induction n with
  | zero => rfl
  | succ n ih => simp [pulseEvents_succ, ih]

/-- A gain pulse does not sample DOUT (R107). -/
theorem count_rdData_pulseEvents (b : Bool) (n : Nat) : (pulseEvents n).count (.rdData b) = 0 := by
  induction n with
  | zero => rfl
  | succ n ih => simp [pulseEvents_succ, ih]

/-- The line trace of a transfer (R62). -/
def transferTrace (s : State) : List LineEvent :=
  [.rdClk false, .rdData false] ++ bitEvents (s.env.after 1 1 0) s.params.sampleBits ++
    pulseEvents (pulses s.params s.regs.gain) ++ [.time s.nowMs]

/-- A transfer leaves `transferTrace` (R62, R105 to R108). -/
theorem execPoll_transferTrace (s : State) (htr : s.TransferNext) :
    ∃ t, execPoll s = .next t ∧ t.trace = transferTrace s :=
  ⟨_, execPoll_transfer s htr, rfl⟩

/-- With legal parameters a transfer ends in a gain pulse and the sample of NOW_MS after it (R107, R108). -/
theorem transferTrace_ends_in_pulse (s : State) (hp : s.params.Legal) :
    ∃ events, transferTrace s = events ++ [.drive true, .drive false, .time s.nowMs] := by
  obtain ⟨n, hn⟩ := Nat.exists_eq_succ_of_ne_zero (pulses_ne_zero s.params hp s.regs.gain)
  refine ⟨[.rdClk false, .rdData false] ++ bitEvents (s.env.after 1 1 0) s.params.sampleBits ++ pulseEvents n, ?_⟩
  simp only [transferTrace, hn, pulseEvents_succ, List.append_assoc, List.cons_append, List.nil_append]

/-- A transfer drives a pulse for each bit and PULSES(GAIN) more (R106, R107). -/
theorem count_drive_true_transferTrace (s : State) :
    (transferTrace s).count (.drive true) = s.params.sampleBits + pulses s.params s.regs.gain := by
  simp [transferTrace, count_drive_true_bitEvents, count_drive_true_pulseEvents]

/-- A transfer samples DOUT at step 2 and once for each bit (R102, R106). -/
theorem count_rdData_transferTrace (s : State) :
    (transferTrace s).count (.rdData true) + (transferTrace s).count (.rdData false) = s.params.sampleBits + 1 := by
  have := count_rdData_bitEvents (s.env.after 1 1 0) s.params.sampleBits
  simp [transferTrace, count_rdData_pulseEvents]
  omega

/-- PULSES of the source's literals (R5, R31). -/
theorem pulses_of_sourceLiterals (p : Config.Params) (hp : p.SourceLiterals) (g : GainMode) :
    p.sampleBits + pulses p g = match g with | .gain128 => 25 | .gain32 => 26 | .gain64 => 27 := by
  obtain ⟨hbits, -, -, h128, h32, h64⟩ := hp
  cases g <;> simp only [pulses, hbits, h128, h32, h64]

/-- Settles O43: the trace is `transferTrace`, whose pulses and samples are counted above. -/
theorem transferDrivesItsPulsesInOrder : Obligations.TransferDrivesItsPulsesInOrder := by
  intro s htr
  obtain ⟨t, ht, htrace⟩ := execPoll_transferTrace s htr
  refine ⟨t, ht, ?_, fun hp => ⟨?_, ?_⟩⟩
  · simp only [htrace, transferTrace, bitEvents, Env.dataAhead_after]
    cases s.regs.gain <;> rfl
  · rw [htrace, count_drive_true_transferTrace]
    exact pulses_of_sourceLiterals s.params hp s.regs.gain
  · rw [htrace, count_rdData_transferTrace, hp.1]

/-- Settles O41: the gate writes neither time, and the trace ends as `transferTrace` does. -/
theorem transferStampsTheOldStartAndRecordsTheNewOne : Obligations.TransferStampsTheOldStartAndRecordsTheNewOne := by
  intro s htr
  obtain ⟨-, htime, hconv, -⟩ := transfer_writes s
  exact ⟨_, execPoll_transfer s htr, htime, hconv, ⟨_, rfl⟩, transferTrace_ends_in_pulse s⟩

end Sys2Proof.Machine
end

section
/-! PROOFS. The micro-states of a whole transfer and their least cycles (R109, R271). -/

namespace Sys2Proof.Machine

/-- From GATE a transfer whose gate passes takes VALID, then RESPOND (R111, R144). -/
theorem microRun_gate_of_pass (q : Seq) (hq : q.micro = .gate) (hg : gatePasses q.m.params q.m.regs = true) :
    (microRun 2 q).micro = .respond ∧ (microRun 3 q).micro = .idle := by
  rcases q with ⟨micro, bit, pulse, sample, done, m⟩
  cases hq
  unfold gatePasses at hg
  split at hg
  case h_1 => cases hg
  case h_2 r hs => simp [microRun, microStep, hs]

/-- The gate passes unless the count it makes is still below RUV (R144). -/
theorem gatePasses_of_not_lt (p : Config.Params) (r : Regs) (h : ¬ r.scnt.toNat + 1 < r.ruv.toNat) :
    gatePasses p r = true := by
  obtain ⟨hlt, -⟩ | ⟨-, hg, -⟩ | ⟨-, hg, -⟩ := afterGate_cases p r
  · exact absurd hlt h
  · exact hg
  · exact hg

/-- The micro-states of a transfer whose gate passes (R109). -/
theorem microRun_of_passing_transfer (s : State) (hp : s.params.Legal) (htr : s.TransferNext)
    (hpass : ¬ s.gateCount + 1 < s.regs.ruv.toNat) :
    (microRun (4 + 3 * s.params.sampleBits + 2 * pulses s.params s.regs.gain + 1 + 2) (seqStart s)).micro = .respond ∧
    (microRun (4 + 3 * s.params.sampleBits + 2 * pulses s.params s.regs.gain + 1 + 3) (seqStart s)).micro = .idle := by
  obtain ⟨hgate, hm⟩ := microRun_to_gate s hp htr
  obtain ⟨-, -, -, hruv, -⟩ := beforeGate_kept s
  have hg : gatePasses s.params (beforeGate s) = true :=
    gatePasses_of_not_lt _ _ (by rwa [beforeGate_scnt, hruv])
  rw [microRun_add, microRun_add _ 3]
  exact microRun_gate_of_pass _ hgate (by rw [hm, transfer_eq]; exact hg)

/-- Settles O50: RESPOND is the last micro-state but one of the general count, which is 86 for Gain64. -/
theorem longestPollTakesEightySixMicroStates : Obligations.LongestPollTakesEightySixMicroStates := by
  intro s hp htr hpass
  have h := microRun_of_passing_transfer s hp htr hpass
  refine ⟨?_, fun hlit hgain => ?_⟩
  · rintro n rfl
    exact h
  · obtain ⟨hbits, -, -, -, -, h64⟩ := hlit
    rw [hgain, pulses, hbits, h64] at h
    exact h

/-- A data pulse takes at least its two times (R106, R271). -/
theorem bit_le_minCyclesOf (tHigh tLow : Nat) (q : Seq) (hm : q.micro = .bitHi) :
    tHigh + tLow ≤ minCyclesOf tHigh tLow 3 q := by
  simp only [minCyclesOf, microStep, Micro.minCycles, hm]
  omega

/-- A gain pulse takes at least its two times (R107, R271). -/
theorem gainPulse_le_minCyclesOf (tHigh tLow : Nat) (q : Seq) (hm : q.micro = .pulseHi) :
    tHigh + tLow ≤ minCyclesOf tHigh tLow 2 q := by
  simp only [minCyclesOf, microStep, Micro.minCycles, hm]
  omega

/-- After a data pulse that is not the last comes the next one (R106). -/
theorem microRun_bit (n : Nat) (q : Seq) (hm : q.micro = .bitHi) (hb : q.bit = n + 1) :
    (microRun 3 q).micro = .bitHi ∧ (microRun 3 q).bit = n := by
  simp only [microRun, microStep, hm, hb, and_self]

/-- After a gain pulse that is not the last comes the next one, with as many pulses to drive in all (R107). -/
theorem microRun_gainPulse (q : Seq) (hm : q.micro = .pulseHi) (hp : q.pulse < pulses q.m.params q.m.regs.gain) :
    (microRun 2 q).micro = .pulseHi ∧ (microRun 2 q).pulse = q.pulse + 1 ∧
    pulses (microRun 2 q).m.params (microRun 2 q).m.regs.gain = pulses q.m.params q.m.regs.gain := by
  simp [microRun, microStep, hm, hp]

/-- The data pulses from bit n down to 0 take at least T_HIGH + T_LOW each (R106, R271). -/
theorem bits_le_minCyclesOf (tHigh tLow n : Nat) (q : Seq) (hm : q.micro = .bitHi) (hb : q.bit = n) :
    (n + 1) * (tHigh + tLow) ≤ minCyclesOf tHigh tLow (3 * (n + 1)) q := by
  induction n generalizing q with
  | zero => simpa using bit_le_minCyclesOf tHigh tLow q hm
  | succ n ih =>
    obtain ⟨hm', hb'⟩ := microRun_bit n q hm hb
    rw [show 3 * (n + 1 + 1) = 3 + 3 * (n + 1) by omega, minCyclesOf_add, Nat.succ_mul, Nat.add_comm]
    exact Nat.add_le_add (bit_le_minCyclesOf tHigh tLow q hm) (ih _ hm' hb')

/-- The gain pulses from the present one to the last take at least T_HIGH + T_LOW each (R107, R271). -/
theorem gainPulses_le_minCyclesOf (tHigh tLow j : Nat) (q : Seq) (hm : q.micro = .pulseHi)
    (hp : q.pulse + j = pulses q.m.params q.m.regs.gain) :
    (j + 1) * (tHigh + tLow) ≤ minCyclesOf tHigh tLow (2 * (j + 1)) q := by
  induction j generalizing q with
  | zero => simpa using gainPulse_le_minCyclesOf tHigh tLow q hm
  | succ j ih =>
    obtain ⟨hm', hpulse, hcount⟩ := microRun_gainPulse q hm (by omega)
    rw [show 2 * (j + 1 + 1) = 2 + 2 * (j + 1) by omega, minCyclesOf_add, Nat.succ_mul, Nat.add_comm]
    exact Nat.add_le_add (gainPulse_le_minCyclesOf tHigh tLow q hm) (ih _ hm' (by rw [hcount, hpulse]; omega))

/-- The micro-states of a transfer up to its last gain pulse, split into those before the first pulse, the data pulses
and the gain pulses (R109). -/
theorem minCyclesOf_transfer_pulses (s : State) (tHigh tLow : Nat) (hp : s.params.Legal) (htr : s.TransferNext) :
    (s.params.sampleBits + pulses s.params s.regs.gain) * (tHigh + tLow) ≤
      minCyclesOf tHigh tLow (4 + 3 * s.params.sampleBits + 2 * pulses s.params s.regs.gain) (seqStart s) := by
  obtain ⟨x, hx⟩ := microRun_to_first_pulse s hp htr
  have hcount := pulses_shiftIn24_atFirstBit s
  obtain ⟨n, hn⟩ := Nat.exists_eq_add_of_le' hp.1
  obtain ⟨j, hj⟩ := Nat.exists_eq_succ_of_ne_zero (pulses_ne_zero s.params hp s.regs.gain)
  have hbits : s.params.sampleBits * (tHigh + tLow) ≤
      minCyclesOf tHigh tLow (3 * s.params.sampleBits) (microRun 4 (seqStart s)) := by
    rw [microRun_to_first_bit s htr, hn]
    exact bits_le_minCyclesOf tHigh tLow n _ rfl rfl
  have hpulses : pulses s.params s.regs.gain * (tHigh + tLow) ≤
      minCyclesOf tHigh tLow (2 * pulses s.params s.regs.gain)
        (microRun (4 + 3 * s.params.sampleBits) (seqStart s)) := by
    rw [hx, hj]
    exact gainPulses_le_minCyclesOf tHigh tLow j _ rfl (by rw [hcount, hj]; exact Nat.add_comm 1 j)
  rw [minCyclesOf_add, minCyclesOf_add, Nat.add_mul]
  omega

/-- A longer run takes no fewer cycles (R109). -/
theorem minCyclesOf_mono (tHigh tLow : Nat) {a b : Nat} (hab : a ≤ b) (q : Seq) :
    minCyclesOf tHigh tLow a q ≤ minCyclesOf tHigh tLow b q := by
  obtain ⟨d, rfl⟩ := Nat.exists_eq_add_of_le hab
  rw [minCyclesOf_add]
  exact Nat.le_add_right _ _

/-- Settles O51: the longest POLL's micro-states include a transfer's pulses, whatever its gain is. -/
theorem transferTakesAtLeastItsPulseTimes : Obligations.TransferTakesAtLeastItsPulseTimes := by
  intro s tHigh tLow hp htr
  have hlongest := transfer_le_longestPoll s.params s.regs.gain
  exact (minCyclesOf_transfer_pulses s tHigh tLow hp htr).trans (minCyclesOf_mono tHigh tLow (by omega) _)

end Sys2Proof.Machine
end

section
/-! PROOFS. The filter and the settling gate (R140 to R153): the two setters, the counter that falls only at gate
resets, the smoothing, and the gate that a raised RUV reopens. -/

namespace Sys2Proof.Machine

/-- The low byte of an operand word, as a number (R83). -/
theorem extractLsb'_zero_eight (arg : Word) : arg.extractLsb' 0 8 = BitVec.ofNat 8 (arg.toNat % 256) := by
  rw [← BitVec.toNat_inj]
  simp

/-- Settles O30: the word 5 decodes to SET_ALPHA of the low byte of its operand word, which writes ALPHA alone. -/
theorem setAlphaStoresTheLowByte : Obligations.SetAlphaStoresTheLowByte := by
  refine fun s alpha arg => ⟨rfl, ?_⟩
  rw [← extractLsb'_zero_eight]
  exact runCommand_of_decode 0x5 arg _ s rfl

/-- The clamp of SET_READS_UNTIL_VALID is a minimum (R151). -/
theorem clamp_toNat (threshold scnt : Byte) :
    (if threshold < scnt then threshold else scnt).toNat = min scnt.toNat threshold.toNat := by
  split
  case isTrue h => exact (min_eq_right (BitVec.lt_def.mp h).le).symm
  case isFalse h => exact (min_eq_left (BitVec.le_def.mp (BitVec.not_lt.mp h))).symm

/-- Settles O31: the word 0x13 decodes to SET_READS_UNTIL_VALID of the low byte, and its clamp is the lesser of the two. -/
theorem setReadsUntilValidClampsTheCounter : Obligations.SetReadsUntilValidClampsTheCounter := by
  intro s arg
  refine ⟨arg.extractLsb' 0 8, _, ?_, clamp_toNat _ s.regs.scnt, runCommand_of_decode 0x13 arg _ s rfl, rfl⟩
  rw [extractLsb'_zero_eight, BitVec.toNat_ofNat, Nat.mod_mod]

/-- The settling gate never counts down (R144, R147). -/
theorem scnt_le_afterGate_scnt (p : Config.Params) (r : Regs) : r.scnt ≤ (afterGate p r).scnt := by
  rw [BitVec.le_def]
  obtain ⟨-, -, c, hc, e⟩ | ⟨-, -, c, hc, e⟩ | ⟨-, -, e⟩ := afterGate_cases p r <;> rw [e]
  · exact hc ▸ Nat.le_succ _
  · exact hc ▸ Nat.le_succ _
  · exact le_rfl

/-- Only a recovery from a timeout resets the count of a transfer (R104). -/
theorem gateCount_of_not_timedOut (s : State) (hs : s.regs.status ≠ .timedOut) : s.gateCount = s.regs.scnt.toNat := by
  unfold State.gateCount
  cases h : s.regs.status
  case timedOut => exact absurd h hs
  all_goals rfl

/-- A transfer that recovers from a timeout starts its count at 0 (R104). -/
theorem gateCount_of_timedOut (s : State) (hs : s.regs.status = .timedOut) : s.gateCount = 0 := by
  unfold State.gateCount
  rw [hs]

/-- A POLL lowers SCNT only where it is a transfer that recovers from a timeout (R104, R147). -/
theorem execPoll_scnt_le (s t : State) (h : execPoll s = .next t)
    (hrec : ¬ (s.TransferNext ∧ s.regs.status = .timedOut)) : s.regs.scnt ≤ t.regs.scnt := by
  obtain ⟨-, st, e⟩ | ⟨htr, e⟩ := execPoll_regs s t h <;> rw [e]
  · exact BitVec.le_refl _
  · have hcount : s.regs.scnt = (beforeGate s).scnt := by
      rw [← BitVec.toNat_inj, beforeGate_scnt, gateCount_of_not_timedOut s fun hst => hrec ⟨htr, hst⟩]
    rw [hcount]
    exact scnt_le_afterGate_scnt _ _

/-- Settles O20: POLL counts up, a SET_GAIN of 0b11 raises, and every command left does not write SCNT. -/
theorem settlingCounterFallsOnlyAtGateResets : Obligations.SettlingCounterFallsOnlyAtGateResets := by
  intro i s t h hup hgain hruv hrec
  obtain ⟨-, -, -, -, -, -, -, -, hscnt, -, -, -, -⟩ := exec_agrees i s t h
  cases i
  case poll => exact execPoll_scnt_le s t h fun hr => hrec ⟨rfl, hr⟩
  case setGain code =>
    cases hgain code rfl
    cases h
    exact BitVec.le_refl _
  case powerUp => exact absurd rfl hup
  case setReadsUntilValid n => exact absurd rfl (hruv n)
  all_goals
    rw [hscnt (by simp [mayWrite])]
    exact BitVec.le_refl _

/-- A reading less than SCALE away leaves SMOOTHED as it is, whatever ALPHA is (R143). -/
theorem smoothedExact_of_close (p : Config.Params) (raw smoothed : Word) (alpha : Byte)
    (hd : (raw.toInt - smoothed.toInt).natAbs < p.scale) : smoothedExact p raw smoothed alpha = smoothed.toInt := by
  have hq : truncDiv (raw.toInt - smoothed.toInt) p.scale = 0 := by
    rw [← Int.natAbs_eq_zero, truncDiv_natAbs, Int.natAbs_natCast, Nat.div_eq_of_lt hd]
  simp only [smoothedExact, hq, zero_mul, add_zero]

/-- ALPHA = 0 leaves SMOOTHED as it is (R143). -/
theorem smoothedExact_alpha_zero (p : Config.Params) (raw smoothed : Word) :
    smoothedExact p raw smoothed 0 = smoothed.toInt := by
  simp [smoothedExact]

/-- The smoothing moves SMOOTHED by a multiple of ALPHA (R143). -/
theorem alpha_dvd_smoothedExact_sub (p : Config.Params) (raw smoothed : Word) (alpha : Byte) :
    (alpha.toNat : Int) ∣ smoothedExact p raw smoothed alpha - smoothed.toInt := by
  simp only [smoothedExact, add_sub_cancel_left, dvd_mul_left]

/-- A transfer that finds SCNT at RUV stores the exact smoothing (R141, R146). -/
theorem execPoll_smooths (s : State) (hp : s.params.Legal) (htr : s.TransferNext)
    (hle : s.regs.ruv.toNat ≤ s.gateCount) :
    ∃ t, execPoll s = .next t ∧
      t.regs.smoothed.toInt = smoothedExact s.params t.regs.raw s.regs.smoothed s.regs.alpha := by
  obtain ⟨t, ht, hgate⟩ := transferCountsSeedsOrSmooths s htr
  rw [if_neg (by omega), if_neg (by omega)] at hgate
  obtain ⟨-, hsmooth, -⟩ := hgate
  exact ⟨t, ht, hsmooth hp⟩

/-- Settles O45: each clause is a property of the exact smoothing, which the transfer stores. -/
theorem smoothingStaysBetweenTheOldValueAndTheReading :
    Obligations.SmoothingStaysBetweenTheOldValueAndTheReading := by
  intro s hp htr hle
  obtain ⟨t, ht, e⟩ := execPoll_smooths s hp htr hle
  obtain ⟨hlo, hhi⟩ := smoothedExact_between s.params hp t.regs.raw s.regs.smoothed s.regs.alpha
  rw [← e] at hlo hhi
  refine ⟨t, ht, hlo, hhi, fun hd => ?_, fun ha => ?_, ?_⟩
  · exact BitVec.eq_of_toInt_eq (e.trans (smoothedExact_of_close s.params _ _ _ hd))
  · exact BitVec.eq_of_toInt_eq (e.trans (ha ▸ smoothedExact_alpha_zero s.params _ _))
  · exact e ▸ alpha_dvd_smoothedExact_sub s.params _ _ _

/-- Settles O48: SET_READS_UNTIL_VALID leaves STATUS, and SCNT where RUV is raised, so the next transfer counts below the
new RUV and its gate holds. -/
theorem raisingTheThresholdHoldsWhileStatusStaysValid :
    Obligations.RaisingTheThresholdHoldsWhileStatusStaysValid := by
  intro s t n hvalid hraise h htr
  obtain ⟨hstatus, hruv, hscnt⟩ :
      t.regs.status = .valid ∧ t.regs.ruv = n ∧ t.regs.scnt.toNat = s.regs.scnt.toNat := by
    rw [finish_regs h]
    exact ⟨hvalid, rfl, (clamp_toNat n s.regs.scnt).trans (min_eq_left (by omega))⟩
  have hcount : t.gateCount = s.regs.scnt.toNat := by
    rw [gateCount_of_not_timedOut t (by rw [hstatus]; decide), hscnt]
  obtain ⟨u, hu, hgate⟩ := transferCountsSeedsOrSmooths t htr
  rw [hruv, hcount, if_pos hraise, State.gateStatus, hstatus] at hgate
  obtain ⟨hscnt', -, hstatus', hrsp⟩ := hgate
  exact ⟨u, hu, hrsp, hstatus', hscnt'⟩

end Sys2Proof.Machine
end

section
/-! PROOFS. The settling gate over a run of POLLs (R147, R148): SCNT counts the transfers since the gate reset, up to RUV. -/

namespace Sys2Proof.Machine

/-- Each POLL of a run is one execution of POLL. -/
theorem exec_poll_afterPolls (k : Nat) (s : State) :
    exec .poll (afterPolls k s) = .next (afterPolls (k + 1) s) := rfl

/-- A run of POLLs keeps RUV, ALPHA and the parameters (R41). -/
theorem afterPolls_keeps (k : Nat) (s : State) :
    (afterPolls k s).regs.ruv = s.regs.ruv ∧ (afterPolls k s).regs.alpha = s.regs.alpha ∧
    (afterPolls k s).params = s.params := by
  induction k with
  | zero => exact ⟨rfl, rfl, rfl⟩
  | succ k ih =>
    obtain ⟨ihruv, ihalpha, ihparams⟩ := ih
    obtain ⟨-, -, -, -, -, -, halpha, hruv, -⟩ := execPoll_agrees _ _ (exec_poll_afterPolls k s)
    obtain ⟨-, hparams⟩ := execPoll_keeps_hostIn_params _ _ (exec_poll_afterPolls k s)
    exact ⟨(hruv (by decide)).trans ihruv, (halpha (by decide)).trans ihalpha, hparams.trans ihparams⟩

/-- A POLL that is no transfer leaves SCNT and SMOOTHED (R148). -/
theorem execPoll_keeps_of_not_transfer (s t : State) (h : execPoll s = .next t) (hno : ¬ s.TransferNext) :
    t.regs.scnt = s.regs.scnt ∧ t.regs.smoothed = s.regs.smoothed := by
  obtain ⟨-, st, e⟩ | ⟨htr, -⟩ := execPoll_regs s t h
  · rw [e]; exact ⟨rfl, rfl⟩
  · exact absurd htr hno

/-- With RUV = n, the transfer that follows m counted ones is the (m + 1)-th: it holds below n, seeds at n, and
smooths above (R144, R148). -/
theorem execPoll_counted_transfer (s t : State) (n m : Nat) (h : execPoll s = .next t) (htr : s.TransferNext)
    (hruv : s.regs.ruv.toNat = n) (hcount : s.gateCount = min m n) :
    t.regs.scnt.toNat = min (m + 1) n ∧
    (m + 1 < n → t.rsp = some 0) ∧
    (m + 1 = n → t.rsp = some 1 ∧ t.regs.status = .valid ∧ t.regs.smoothed = t.regs.raw) ∧
    (n < m + 1 → t.rsp = some 1 ∧ t.regs.status = .valid ∧
      (s.params.Legal → t.regs.smoothed.toInt =
        smoothedExact s.params t.regs.raw s.regs.smoothed s.regs.alpha)) := by
  obtain ⟨t', ht', hgate⟩ := transferCountsSeedsOrSmooths s htr
  cases ht'.symm.trans h
  rw [hruv, hcount] at hgate
  obtain hlt | heq | hgt := lt_trichotomy (m + 1) n
  · rw [if_pos (by omega)] at hgate
    obtain ⟨hscnt, -, -, hrsp⟩ := hgate
    exact ⟨by omega, fun _ => hrsp, by omega, by omega⟩
  · rw [if_neg (by omega), if_pos (by omega)] at hgate
    obtain ⟨hscnt, hseed, hvalid, hrsp⟩ := hgate
    exact ⟨by omega, by omega, fun _ => ⟨hrsp, hvalid, hseed⟩, by omega⟩
  · rw [if_neg (by omega), if_neg (by omega)] at hgate
    obtain ⟨hscnt, hsmooth, hvalid, hrsp⟩ := hgate
    exact ⟨by omega, by omega, by omega, fun _ => ⟨hrsp, hvalid, hsmooth⟩⟩

/-- The settling gate has counted c transfers towards n: SCNT is the lesser of the two, or the next POLL is a transfer that
recovers from a timeout and so starts the count anew (R104, R147). -/
def State.Counted (n c : Nat) (s : State) : Prop :=
  s.regs.scnt.toNat = min c n ∨ (s.regs.status = .timedOut ∧ s.TransferNext)

/-- A transfer counts one more than its gate finds, the recovery from a timeout included (R104, R147). -/
theorem gateCount_of_counted (k n : Nat) (s : State) (hc : (afterPolls k s).Counted n (transfersSince k s))
    (htr : (afterPolls k s).TransferNext) :
    ∃ m, transfersSince (k + 1) s = m + 1 ∧ (afterPolls k s).gateCount = min m n := by
  rw [transfersSince_of_transfer k s htr]
  by_cases hst : (afterPolls k s).regs.status = .timedOut
  · refine ⟨0, ?_, ?_⟩
    · rw [hst]
    · rw [gateCount_of_timedOut _ hst, Nat.zero_min]
  · obtain hscnt | ⟨h, -⟩ := hc
    · refine ⟨transfersSince k s, ?_, ?_⟩
      · cases h : (afterPolls k s).regs.status
        case timedOut => exact absurd h hst
        all_goals rfl
      · rw [gateCount_of_not_timedOut _ hst, hscnt]
    · exact absurd h hst

/-- A POLL of a counted run brings SCNT to the lesser of its count and n (R147, R148). -/
theorem scnt_of_counted (k n : Nat) (s : State) (hruv : s.regs.ruv.toNat = n)
    (hc : (afterPolls k s).Counted n (transfersSince k s)) :
    (afterPolls (k + 1) s).regs.scnt.toNat = min (transfersSince (k + 1) s) n := by
  have h := exec_poll_afterPolls k s
  by_cases htr : (afterPolls k s).TransferNext
  · obtain ⟨m, hm, hcount⟩ := gateCount_of_counted k n s hc htr
    have hruv' : (afterPolls k s).regs.ruv.toNat = n := by rw [(afterPolls_keeps k s).1, hruv]
    rw [hm]
    exact (execPoll_counted_transfer _ _ n m h htr hruv' hcount).1
  · rw [transfersSince_of_not_transfer k s htr, (execPoll_keeps_of_not_transfer _ _ h htr).1]
    obtain hscnt | ⟨-, h'⟩ := hc
    · exact hscnt
    · exact absurd h' htr

/-- From a gate reset, every run of POLLs is counted (R147). -/
theorem afterPolls_counted (k n : Nat) (s : State)
    (hreset : s.regs.scnt = 0 ∨ (s.regs.status = .timedOut ∧ s.TransferNext)) (hruv : s.regs.ruv.toNat = n) :
    (afterPolls k s).Counted n (transfersSince k s) := by
  induction k with
  | zero => exact hreset.imp_left fun h => show s.regs.scnt.toNat = min 0 n by rw [h, Nat.zero_min]; rfl
  | succ k ih => exact .inl (scnt_of_counted k n s hruv ih)

/-- Settles O47: every POLL of the run is counted; one that is no transfer keeps the count, and a transfer is the next
one, which holds, seeds or smooths by its number. -/
theorem readingsBecomeValidAtTheThresholdTransfer : Obligations.ReadingsBecomeValidAtTheThresholdTransfer := by
  intro s n k hreset hruv _
  have h := exec_poll_afterPolls k s
  have hc := afterPolls_counted k n s hreset hruv
  refine ⟨h, scnt_of_counted k n s hruv hc, fun hno => ?_, fun htr => ?_⟩
  · exact ⟨transfersSince_of_not_transfer k s hno, execPoll_keeps_of_not_transfer _ _ h hno⟩
  · obtain ⟨hruv', halpha, hparams⟩ := afterPolls_keeps k s
    obtain ⟨m, hm, hcount⟩ := gateCount_of_counted k n s hc htr
    rw [hm, ← halpha, ← hparams]
    exact (execPoll_counted_transfer _ _ n m h htr (by rw [hruv', hruv]) hcount).2

end Sys2Proof.Machine
end

section
/-! PROOFS. The calibration datapath (R170 to R179): the tared difference and the truncated quotient as integers, and the
commands that answer or store them. -/

namespace Sys2Proof.Machine

/-- Diff(S) as an integer (R171). -/
theorem tared_toInt (r : Regs) (sel : Reading) :
    (r.tared sel).toInt = i32Of ((r.selected sel).toInt - r.tare.toInt) := wrap32_toInt _

/-- Diff(S) is exact where the difference is below 2^31 in size (R171). -/
theorem tared_toInt_of_natAbs_lt (r : Regs) (sel : Reading)
    (hd : ((r.selected sel).toInt - r.tare.toInt).natAbs < 2 ^ 31) :
    (r.tared sel).toInt = (r.selected sel).toInt - r.tare.toInt :=
  wrap32_toInt_of_range _ (by omega) (by omega)

/-- The stored quotient as an integer (R176, R179). -/
theorem quotient32_toInt (a b : Word) : (quotient32 a b).toInt = i32Of (Int.tdiv a.toInt b.toInt) := wrap32_toInt _

/-- The quotient of a tared reading, down to the two registers it reads and its divisor (R176, R179). -/
theorem quotient32_tared_toInt (r : Regs) (sel : Reading) (b : Word) :
    (quotient32 (r.tared sel) b).toInt =
      i32Of (Int.tdiv (i32Of ((r.selected sel).toInt - r.tare.toInt)) b.toInt) := by
  rw [quotient32_toInt, tared_toInt]

/-- An i32 is the number 0 for the zero word alone. -/
theorem toInt_eq_zero_iff (w : Word) : w.toInt = 0 ↔ w = 0 := by
  rw [← BitVec.toInt_inj, show (0 : Word).toInt = 0 from rfl]

/-- ADJUST_TO's divisor as an integer (R176). -/
theorem coercedTarget_toInt (target : Word) :
    (coercedTarget target).toInt = if target.toInt = 0 then 1 else target.toInt := by
  simp only [coercedTarget, toInt_eq_zero_iff]
  split
  · rfl
  · rfl

/-- Settles O26: the answer is Diff(S), which wraps the difference and keeps a small one. -/
theorem rawMinusTareWrapsToThirtyTwoBits : Obligations.RawMinusTareWrapsToThirtyTwoBits := by
  intro sel s
  exact ⟨s.regs.tared sel, rfl, tared_toInt s.regs sel, tared_toInt_of_natAbs_lt s.regs sel⟩

/-- Settles O27: what is stored is the quotient of Diff(S) by the coerced target. -/
theorem adjustToStoresTheTruncatedQuotient : Obligations.AdjustToStoresTheTruncatedQuotient := by
  intro sel target s
  have hq := quotient32_tared_toInt s.regs sel (coercedTarget target)
  rw [coercedTarget_toInt] at hq
  exact ⟨_, rfl, hq⟩

/-- Settles O28: of GET_ADJUSTED's two ways, ADJUSTER = 0 raises and any other value divides. -/
theorem adjustedReadingIsTheTruncatedQuotient : Obligations.AdjustedReadingIsTheTruncatedQuotient := by
  intro sel s
  rw [Ne, toInt_eq_zero_iff]
  obtain ⟨hz, e⟩ | ⟨hnz, e⟩ := execGetAdjusted_cases sel s
  · exact ⟨fun h => absurd hz h, fun _ => e⟩
  · exact ⟨fun _ => ⟨_, e, quotient32_tared_toInt s.regs sel s.regs.adjuster⟩, fun h => absurd h hnz⟩

/-- Settles O29: each is a `finish` that writes one register, and the two words decode to the two setters. -/
theorem calibrationSettersStoreTheirValue : Obligations.CalibrationSettersStoreTheirValue := by
  intro s value
  refine ⟨rfl, rfl, rfl, ?_, rfl, ?_⟩
  · exact runCommand_of_decode 0x0A value (.setTare value) s rfl
  · exact runCommand_of_decode 0x0F value (.setAdjuster value) s rfl

end Sys2Proof.Machine
end

section
/-! PROOFS. The power and gain commands (R200 to R202): the two drives of the clock line, and the gain that restarts the
settling gate. -/

namespace Sys2Proof.Machine

/-- A code that names a gain is written as that gain, and the settling gate restarts, whatever gain is held (R202). -/
theorem exec_setGain_of_gainOfCode (s : State) {code : BitVec 2} {g : GainMode} (hg : gainOfCode code = some g) :
    exec (.setGain code) s =
      .next { s.answered 0 with regs := { s.regs with gain := g, status := .init, scnt := 0 } } := by
  simp only [exec, execSetGain, hg, finish_eq, State.answered]

/-- A code that names no gain raises ILLEGAL_GAIN, which sets ERR[2] and writes no other register (R202, R224). -/
theorem exec_setGain_of_gainOfCode_eq_none (s : State) {code : BitVec 2} (hg : gainOfCode code = none) :
    exec (.setGain code) s = .next { s.answered 0 with regs := { s.regs with err := s.regs.err ||| 0b0100 } } := by
  simp only [exec, execSetGain, hg, raise_eq, State.answered]
  rfl

/-- The low two bits of an operand word, as a number (R83). -/
theorem extractLsb'_zero_two (arg : Word) : arg.extractLsb' 0 2 = BitVec.ofNat 2 (arg.toNat % 4) := by
  rw [← BitVec.toNat_inj]
  simp

/-- Settles O32: codes 0 to 2 name the three gains and code 3 names none, and the word 3 decodes to SET_GAIN of the low
two bits of its operand word. -/
theorem setGainRestartsTheGateOrRaisesIllegalGain : Obligations.SetGainRestartsTheGateOrRaisesIllegalGain := by
  intro s arg
  refine ⟨exec_setGain_of_gainOfCode s rfl, exec_setGain_of_gainOfCode s rfl, exec_setGain_of_gainOfCode s rfl,
    exec_setGain_of_gainOfCode_eq_none s rfl, ?_⟩
  rw [← extractLsb'_zero_two]
  exact runCommand_of_decode 0x3 arg _ s rfl

/-- A drive at the start of a command writes CLK_DRV and is the command's first line event (R38, R62). -/
theorem beginCommand_drive (s : State) (level : Bool) :
    s.beginCommand.drive level =
      { s with regs := { s.regs with clkDrv := level }, trace := [.drive level] } := rfl

/-- Settles O33: the drive is the one update between the start of the command and its result. -/
theorem powerDownOnlyRaisesTheClockLine : Obligations.PowerDownOnlyRaisesTheClockLine := by
  intro s
  simp only [exec, execPowerDown, beginCommand_drive, State.respond]

/-- Settles O34: neither the drive nor the gate's restart takes a draw, so the NOW_MS sampled after them is the
environment's next value. -/
theorem powerUpRestartsTheGateAndTheTimeout : Obligations.PowerUpRestartsTheGateAndTheTimeout := by
  intro s
  simp only [exec, execPowerUp, beginCommand_drive, State.withRegs, State.sampleNow, State.emit, State.nowMs,
    State.respond, List.cons_append, List.nil_append]

end Sys2Proof.Machine
end

section
/-! PROOFS. Which commands leave ERR alone (R223, R236): SET_GAIN and GET_ADJUSTED are the only commands that may write it,
and each writes it on its one raising way only. -/

namespace Sys2Proof.Machine

/-- A command without ERR in its write columns of R41 keeps it, however its POLL ends or its arithmetic wraps. -/
theorem exec_keeps_err_of_not_mayWrite {i : Instr} {s t : State} (hi : RegName.err ∉ mayWrite i)
    (h : exec i s = .next t) : t.regs.err = s.regs.err := by
  obtain ⟨-, -, -, -, -, -, -, -, -, -, -, herr, -⟩ := exec_agrees i s t h
  exact herr hi

/-- SET_GAIN of a code that names a gain keeps ERR (R202). -/
theorem execSetGain_keeps_err {code : BitVec 2} {s t : State} (hcode : code ≠ 0b11)
    (h : execSetGain code s = .next t) : t.regs.err = s.regs.err := by
  obtain ⟨hbad, -⟩ | ⟨-, g, e⟩ := execSetGain_cases code s
  · exact absurd hbad hcode
  · rw [finish_regs (e.symm.trans h)]

/-- GET_ADJUSTED with a divisor keeps ERR (R179). -/
theorem execGetAdjusted_keeps_err {sel : Reading} {s t : State} (hadj : s.regs.adjuster ≠ 0)
    (h : execGetAdjusted sel s = .next t) : t.regs.err = s.regs.err := by
  obtain ⟨hz, -⟩ | ⟨-, e⟩ := execGetAdjusted_cases sel s
  · exact absurd hz hadj
  · rw [finish_regs (e.symm.trans h)]

/-- A well-formed command keeps ERR, whatever it held, unless it is GET_ADJUSTED with ADJUSTER = 0 (R223, R236). -/
theorem exec_keeps_err_of_wellFormed {i : Instr} {s t : State} (hi : i.wellFormed = true)
    (hadj : ∀ sel, i = .getAdjusted sel → s.regs.adjuster ≠ 0) (h : exec i s = .next t) :
    t.regs.err = s.regs.err := by
  cases i
  case setGain code => exact execSetGain_keeps_err (bne_iff_ne.mp hi) h
  case getAdjusted sel => exact execGetAdjusted_keeps_err (hadj sel rfl) h
  all_goals exact exec_keeps_err_of_not_mayWrite (by simp [mayWrite]) h

/-- Settles O23: a command that keeps ERR keeps it at zero. -/
theorem wellFormedCommandsRaiseOnlyDivByZero : Obligations.WellFormedCommandsRaiseOnlyDivByZero := by
  intro i s t hi hadj hs h
  exact (exec_keeps_err_of_wellFormed hi hadj h).trans hs

end Sys2Proof.Machine
end

section
/-! PROOFS. A reset inside a command (R260, R261): a command samples NOW_MS at most once, so the reset's own sample is the
first or the second of the step. -/

namespace Sys2Proof.Machine

/-- The most NOW_MS samples a POLL can still take from a micro-state on: CHK_TIME and START take one each, and no path of
R109 passes both. -/
def Micro.nowSamplesLeft : Micro → Nat
  | .chkClk | .chkData | .chkTime | .recover | .stamp | .bitHi | .bitSample | .bitLo | .pulseHi | .pulseLo | .start => 1
  | .setPd | .setTo | .gate | .valid | .respond | .idle => 0

/-- Between the two states at most `n` draws of NOW_MS have been taken. -/
def NowDrawsWithin (n : Nat) (s t : State) : Prop := ∃ j ≤ n, t.env.now = s.env.now.after j

/-- Where no draw of NOW_MS has been taken, any bound holds. -/
theorem nowDrawsWithin_of_eq {n : Nat} {s t : State} (h : t.env.now = s.env.now) : NowDrawsWithin n s t :=
  ⟨0, n.zero_le, by rw [h, Stream.after_zero]⟩

/-- A bound on the draws of NOW_MS may be raised. -/
theorem NowDrawsWithin.mono {m n : Nat} {s t : State} (h : NowDrawsWithin m s t) (hmn : m ≤ n) :
    NowDrawsWithin n s t := by
  obtain ⟨j, hj, e⟩ := h
  exact ⟨j, hj.trans hmn, e⟩

/-- Two parts of a run take the draws of both. -/
theorem NowDrawsWithin.trans {m n : Nat} {s t u : State} (hst : NowDrawsWithin m s t) (htu : NowDrawsWithin n t u) :
    NowDrawsWithin (m + n) s u := by
  obtain ⟨i, hi, e⟩ := hst
  obtain ⟨j, hj, e'⟩ := htu
  exact ⟨i + j, Nat.add_le_add hi hj, by rw [e', e, Stream.after_after]⟩

/-- The next NOW_MS value after at most `n` draws is one of the first `n + 1` ahead. -/
theorem NowDrawsWithin.nowMs {n : Nat} {s t : State} (h : NowDrawsWithin n s t) :
    ∃ j ≤ n, t.nowMs = s.env.nowAhead j := by
  obtain ⟨j, hj, e⟩ := h
  exact ⟨j, hj, by simp [State.nowMs, Env.nowAhead, e]⟩

/-- The NOW_MS samples that a micro-state takes, and those its successor has left, are among those it had left (R109). -/
theorem microStep_nowDraws (q : Seq) :
    ∃ d, d + (microStep q).micro.nowSamplesLeft ≤ q.micro.nowSamplesLeft ∧ NowDrawsWithin d q.m (microStep q).m := by
  rcases q with ⟨micro, bit, pulse, sample, done, m⟩
  cases micro
  case chkTime =>
    refine ⟨1, ?_, 1, le_rfl, rfl⟩
    simp only [microStep]
    split <;> decide
  case start => exact ⟨1, le_rfl, 1, le_rfl, rfl⟩
  case chkClk | chkData =>
    refine ⟨0, ?_, nowDrawsWithin_of_eq (by simp [microStep, Env.after])⟩
    simp only [microStep]
    split <;> decide
  case bitSample => exact ⟨0, le_rfl, nowDrawsWithin_of_eq (by simp [microStep, Env.after])⟩
  case bitLo => cases bit <;> exact ⟨0, le_rfl, nowDrawsWithin_of_eq rfl⟩
  case pulseLo =>
    simp only [microStep]
    split <;> exact ⟨0, le_rfl, nowDrawsWithin_of_eq rfl⟩
  case gate =>
    simp only [microStep]
    rcases m.regs.settle m.params with ⟨r, g⟩
    cases g <;> exact ⟨0, le_rfl, nowDrawsWithin_of_eq rfl⟩
  all_goals exact ⟨0, le_rfl, nowDrawsWithin_of_eq rfl⟩

/-- Micro-states in a row take no more NOW_MS samples than the first of them has left (R109). -/
theorem microRun_nowDraws (n : Nat) (q : Seq) : NowDrawsWithin q.micro.nowSamplesLeft q.m (microRun n q).m := by
  induction n generalizing q with
  | zero => exact nowDrawsWithin_of_eq rfl
  | succ n ih =>
    obtain ⟨d, hd, hstep⟩ := microStep_nowDraws q
    exact (hstep.trans (ih (microStep q))).mono hd

/-- A command other than POLL samples NOW_MS at most once: POWER_UP does (R201), and no other (R62). -/
theorem exec_nowDraws {i : Instr} {s t : State} (hi : i ≠ .poll) (h : exec i s = .next t) : NowDrawsWithin 1 s t := by
  cases hlines : leavesLinesAlone i with
  | true =>
    obtain ⟨r, res, e⟩ := exec_eq_finish i s hlines
    cases e.symm.trans h
    exact nowDrawsWithin_of_eq rfl
  | false =>
    cases i
    case poll => exact absurd rfl hi
    case powerDown => cases h; exact nowDrawsWithin_of_eq rfl
    case powerUp => cases h; exact ⟨1, le_rfl, rfl⟩
    all_goals cases hlines

/-- An accepted word that is not POLL's samples NOW_MS at most once; a rejected one makes no line event (R224). -/
theorem runCommand_nowDraws {word arg : Word} {s t : State} (hd : decode word arg ≠ .ok .poll)
    (h : runCommand word arg s = .next t) : NowDrawsWithin 1 s t := by
  cases hdec : decode word arg with
  | ok i =>
    rw [runCommand_of_decode word arg i s hdec] at h
    exact exec_nowDraws (fun hi => hd (hi ▸ hdec)) h
  | error e =>
    rw [runCommand_of_error word arg e s hdec, raise_eq] at h
    cases h
    exact nowDrawsWithin_of_eq rfl

/-- A command abandoned on its way has sampled NOW_MS at most once, wherever the reset lands (R260, R261). -/
theorem abandonedAfter_nowDraws (k : Nat) (word arg : Word) (s : State) :
    NowDrawsWithin 1 s (abandonedAfter k word arg s) := by
  unfold abandonedAfter
  split_ifs with hpoll
  · exact microRun_nowDraws k (seqStart s)
  · exact nowDrawsWithin_of_eq rfl
  · exact nowDrawsWithin_of_eq rfl
  · obtain ⟨t, ht⟩ := runCommand_next word arg s
    rw [ht]
    exact runCommand_nowDraws hpoll ht

/-- With RST = 1 after k micro-states, a step resets the state of the abandoned command, or the block's own state where no
command is accepted (R260, R261). -/
theorem step_of_during (s : State) (h : HostIn) (rest : List HostIn) (k : Nat) (hs : s.hostIn = h :: rest)
    (hr : h.rst = .during k) :
    ∃ u, step s = .next u.applyReset ∧
      (u = { s with hostIn := rest } ∨ u = abandonedAfter k h.cmdWord h.cmdArg { s with hostIn := rest }) := by
  rw [step_of_cons s h rest hs]
  simp only [hostStep, hr]
  split
  · exact ⟨_, rfl, .inr rfl⟩
  · exact ⟨_, rfl, .inl rfl⟩

/-- Settles O12: what the reset finds has kept the host's further levels and the parameters and taken at most one draw of
NOW_MS, and `applyReset` writes every register from the parameters and the next draw. -/
theorem resetInsideACommandLeavesOnlyResetValues : Obligations.ResetInsideACommandLeavesOnlyResetValues := by
  intro s h rest k hs hr
  obtain ⟨u, hstep, hu⟩ := step_of_during s h rest k hs hr
  have hnow : NowDrawsWithin 1 s u := by
    obtain rfl | rfl := hu
    · exact nowDrawsWithin_of_eq rfl
    · exact abandonedAfter_nowDraws k _ _ { s with hostIn := rest }
  obtain ⟨hhost, hparams⟩ : u.hostIn = rest ∧ u.params = s.params := by
    obtain rfl | rfl := hu
    · exact ⟨rfl, rfl⟩
    · exact abandonedAfter_keeps_hostIn_params k _ _ { s with hostIn := rest }
  refine ⟨u.applyReset, u.nowMs, hstep, hnow.nowMs, ?_, rfl, rfl, hhost, hparams⟩
  rw [applyReset_regs, hparams, Regs.reset]

end Sys2Proof.Machine
end
